-- ==== Sys2Proof/Config.lean ====
section
/-! DEFINITION. The parameters of the hardware (spec/00_scope.md R5) that a reader may want to change in one place, and
the sizes the host may query (spec/70_reset_and_hazards.md R153). The hardware leaves no value open (R163): there is no
free value here. The draw limits `DRAW_XLIMIT` and `DRAW_YLIMIT` (R115) stand in Machine/Compositor.lean, where a repair may
change them. -/

namespace Sys2Proof

/-- `MEM_SIZE`: 4096 bytes, addresses 0x000 to 0xFFF (R5, R25). -/
def Config.memSize : Nat := 4096

/-- `DISP_W`: 64 columns (R5, R26). -/
def Config.dispW : Nat := 64

/-- `DISP_H`: 32 rows (R5, R26). -/
def Config.dispH : Nat := 32

/-- `SPRITE_W`: 8 columns in every sprite row, one byte a row (R5, R113). -/
def Config.spriteW : Nat := 8

/-- `LOAD_BASE`: where the host's loader conventionally places a program; the core does not know it (R5, R152; decision
D10). It is a default of the host, not a value of the machine. -/
def Config.loadBase : BitVec 12 := 0x200#12

end Sys2Proof
end

