-- ==== Sys2Proof/Word.lean ====
section
/-! DEFINITION. The bit-vector types of the chip8-r core (spec/00_scope.md R5, R6). -/

namespace Sys2Proof

/-- A byte: bits 7 to 0 (R6). General registers and memory cells hold one (R21, R25). -/
abbrev Byte := BitVec 8

/-- A 16-bit value: an instruction word, `PC`, `I`, a fault's `info` (R23, R24, R28, R60). -/
abbrev Word := BitVec 16

/-- The 12-bit address field `nnn` of an instruction (R61). -/
abbrev Addr12 := BitVec 12

/-- A register selector: an index 0 to 15, every one of which is valid (R21). -/
abbrev RegIndex := Fin 16

end Sys2Proof
end

