-- ==== Sys2Proof/Syntax.lean ====
section
/-! DEFINITION. The instructions (spec/opcode_table.json, spec/00_scope.md R3), the seven results of decoding (R8, R82)
and the assembler's lines (spec/30_encoding.md R69). -/

namespace Sys2Proof

/-- The six instructions of the core, one constructor per row of the opcode table (R3). Every operand type holds
exactly the values its field of the word can hold (R61), so no term of this type is ill-formed. -/
inductive Instr where
  /-- `CLS`, 0x00E0: clear the display (R90). -/
  | cls
  /-- `JP nnn`, 0x1nnn: jump (R91). -/
  | jp (nnn : Addr12)
  /-- `LD Vx, nn`, 0x6xnn: set a register (R100). -/
  | ldV (x : RegIndex) (nn : Byte)
  /-- `ADD Vx, nn`, 0x7xnn: wrapping add of an immediate (R101). -/
  | addV (x : RegIndex) (nn : Byte)
  /-- `LD I, nnn`, 0xAnnn: set the index register (R102). -/
  | ldI (nnn : Addr12)
  /-- `DRW Vx, Vy, n`, 0xDxyn: draw a sprite of `n` rows, `n` a count 0 to 15 (R110). -/
  | drw (x y : RegIndex) (n : Fin 16)
  deriving DecidableEq, Repr

/-- What decoding a word gives: an instruction, or the explicit "unrecognized" result with the word itself (R8, R82). -/
inductive Decoded where
  | instr (i : Instr)
  | unknown (w : Word)
  deriving DecidableEq, Repr

/-- Why a list of bytes is not an instruction followed by more bytes. -/
inductive DecodeError where
  /-- Fewer than the two bytes every instruction has (R60). -/
  | truncated
  /-- The word is none of the six instructions (R66). -/
  | unknownOpcode (w : Word)
  deriving DecidableEq, Repr

/-- A line of assembler text after its characters are read: operands are numbers as written, of any size (R69). `db` is
the data directive `DB b0, b1, ...`, which places bytes and is no instruction. -/
inductive AsmLine where
  | cls
  | jp (addr : Nat)
  | ldV (x byte : Nat)
  | addV (x byte : Nat)
  | ldI (addr : Nat)
  | drw (x y nibble : Nat)
  | db (bytes : List Nat)
  deriving DecidableEq, Repr

end Sys2Proof
end

