-- ==== Sys2Proof/WellFormed.lean ====
section
/-! DEFINITION. Well-formedness: which assembler lines have operands in range (spec/30_encoding.md R69: "An operand
outside its range is an assembly error, not an encoding"). A term of `Instr` is always well-formed, since its operand
types are the fields of R61; `Instr.wellFormed_all` says so. -/

namespace Sys2Proof

/-- Every operand of the line is inside the range of its field (R69). -/
def AsmLine.wellFormed : AsmLine → Bool
  | .cls => true
  | .jp addr => decide (addr ≤ 0xFFF)
  | .ldV x byte => decide (x ≤ 15) && decide (byte ≤ 0xFF)
  | .addV x byte => decide (x ≤ 15) && decide (byte ≤ 0xFF)
  | .ldI addr => decide (addr ≤ 0xFFF)
  | .drw x y nibble => decide (x ≤ 15) && decide (y ≤ 15) && decide (nibble ≤ 15)
  | .db bytes => bytes.all fun b => decide (b ≤ 0xFF)

/-- The assembler line that names an instruction. -/
def Instr.asm : Instr → AsmLine
  | .cls => .cls
  | .jp nnn => .jp nnn.toNat
  | .ldV x nn => .ldV x.val nn.toNat
  | .addV x nn => .addV x.val nn.toNat
  | .ldI nnn => .ldI nnn.toNat
  | .drw x y n => .drw x.val y.val n.val

/-- An instruction is well-formed when the line that names it is. -/
def Instr.wellFormed (i : Instr) : Bool := i.asm.wellFormed

/-- No instruction is ill-formed: the operand types carry the ranges of R61 and R69. -/
theorem Instr.wellFormed_all (i : Instr) : i.wellFormed = true := by
  cases i <;> simp [Instr.wellFormed, Instr.asm, AsmLine.wellFormed] <;> omega

end Sys2Proof
end

