-- ==== Sys2Proof/Decode.lean ====
section
/-! DEFINITION. Instruction words: byte order, fields, formats, decoding and encoding (spec/30_encoding.md R60 to R72,
spec/20_memory.md R43). -/

namespace Sys2Proof

/-- The word two bytes make, the first byte the high one (R43, R60). -/
def wordOfBytes (hi lo : Byte) : Word := hi ++ lo

/-- Bits 15:8 of a word: the byte stored at the lower address (R43). -/
def wordHi (w : Word) : Byte := w.extractLsb' 8 8

/-- Bits 7:0 of a word: the byte stored at the higher address (R43). -/
def wordLo (w : Word) : Byte := w.extractLsb' 0 8

/-- `class`, bits 15:12 (R61). -/
def fieldClass (w : Word) : BitVec 4 := w.extractLsb' 12 4

/-- `x`, bits 11:8 (R61). -/
def fieldX (w : Word) : RegIndex := (w.extractLsb' 8 4).toFin

/-- `y`, bits 7:4 (R61). -/
def fieldY (w : Word) : RegIndex := (w.extractLsb' 4 4).toFin

/-- `n`, bits 3:0, an unsigned count (R61, R63). -/
def fieldN (w : Word) : Fin 16 := (w.extractLsb' 0 4).toFin

/-- `nn`, bits 7:0 (R61). -/
def fieldNN (w : Word) : Byte := w.extractLsb' 0 8

/-- `nnn`, bits 11:0 (R61). -/
def fieldNNN (w : Word) : Addr12 := w.extractLsb' 0 12

/-- Decoding, total on all 65536 words: the full word first for class 0x0, else the class alone (R64). -/
def decode (w : Word) : Decoded :=
  if w = 0x00E0#16 then .instr .cls
  else if fieldClass w = 0x1#4 then .instr (.jp (fieldNNN w))
  else if fieldClass w = 0x6#4 then .instr (.ldV (fieldX w) (fieldNN w))
  else if fieldClass w = 0x7#4 then .instr (.addV (fieldX w) (fieldNN w))
  else if fieldClass w = 0xA#4 then .instr (.ldI (fieldNNN w))
  else if fieldClass w = 0xD#4 then .instr (.drw (fieldX w) (fieldY w) (fieldN w))
  else .unknown w

/-- Decoding the instruction at the front of a list of bytes, with the bytes after it: two bytes, high byte first; what is
no instruction is rejected by name (R60, R66). -/
def decodeBytes : List Byte → Except DecodeError (Instr × List Byte)
  | hi :: lo :: rest =>
    match decode (wordOfBytes hi lo) with
    | .instr i => .ok (i, rest)
    | .unknown w => .error (.unknownOpcode w)
  | _ => .error .truncated

/-- The instruction the decoder reads from the `nbits` bits of `w`, numbered as spec/opcode_table.json numbers them (bit 0
the least significant of the one word an instruction has, R60); bits above `nbits` are 0. -/
def decodeTableWord (nbits w : Nat) : Option Instr :=
  let word : Word := BitVec.ofNat 16 (w % 2 ^ nbits)
  match decodeBytes [wordHi word, wordLo word] with
  | .ok (i, _) => some i
  | .error _ => none

/-- Format `A`: class and address (R62). -/
def formatA (cls : BitVec 4) (nnn : Addr12) : Word := cls ++ nnn

/-- Format `XI`: class, register and immediate byte (R62). -/
def formatXI (cls : BitVec 4) (x : RegIndex) (nn : Byte) : Word := cls ++ BitVec.ofFin (w := 4) x ++ nn

/-- Format `XYN`: class, two registers and a nibble (R62). -/
def formatXYN (cls : BitVec 4) (x y : RegIndex) (n : Fin 16) : Word :=
  cls ++ BitVec.ofFin (w := 4) x ++ BitVec.ofFin (w := 4) y ++ BitVec.ofFin (w := 4) n

/-- The word of an instruction (R62, R71). -/
def encode : Instr → Word
  | .cls => 0x00E0#16
  | .jp nnn => formatA 0x1#4 nnn
  | .ldV x nn => formatXI 0x6#4 x nn
  | .addV x nn => formatXI 0x7#4 x nn
  | .ldI nnn => formatA 0xA#4 nnn
  | .drw x y n => formatXYN 0xD#4 x y n

/-- The two bytes of an instruction in memory order (R43, R60, R71). -/
def encodeBytes (i : Instr) : List Byte := [wordHi (encode i), wordLo (encode i)]

/-- The instruction a line names, where it names one and its operands are in range (R69). -/
def AsmLine.instr? : AsmLine → Option Instr
  | .cls => some .cls
  | .jp addr => if h : addr < 4096 then some (.jp ⟨addr, h⟩) else none
  | .ldV x byte => if h : x < 16 ∧ byte < 256 then some (.ldV ⟨x, h.1⟩ ⟨byte, h.2⟩) else none
  | .addV x byte => if h : x < 16 ∧ byte < 256 then some (.addV ⟨x, h.1⟩ ⟨byte, h.2⟩) else none
  | .ldI addr => if h : addr < 4096 then some (.ldI ⟨addr, h⟩) else none
  | .drw x y nibble =>
    if h : x < 16 ∧ y < 16 ∧ nibble < 16 then some (.drw ⟨x, h.1⟩ ⟨y, h.2.1⟩ ⟨nibble, h.2.2⟩) else none
  | .db _ => none

/-- The bytes a line places in memory; `none` is the assembly error of an operand out of range (R69, R71). -/
def AsmLine.assemble : AsmLine → Option (List Byte)
  | .db bytes => if (AsmLine.db bytes).wellFormed then some (bytes.map (BitVec.ofNat 8)) else none
  | line => line.instr?.map encodeBytes

/-- One row of the machine-readable opcode map (R65). -/
structure OpcodeRow where
  mnemonic : String
  pattern : Word
  mask : Word
  deriving DecidableEq, Repr

/-- A word is the instruction of a row iff `w & mask = match` (R65). -/
def OpcodeRow.matches (r : OpcodeRow) (w : Word) : Bool := w &&& r.mask == r.pattern

/-- Row `CLS`: the one full-word row (R65). -/
def rowCls : OpcodeRow := ⟨"CLS", 0x00E0#16, 0xFFFF#16⟩

/-- Row `JP` (R65). -/
def rowJp : OpcodeRow := ⟨"JP", 0x1000#16, 0xF000#16⟩

/-- Row `LD Vx, nn` (R65). -/
def rowLdV : OpcodeRow := ⟨"LD_Vx__nn", 0x6000#16, 0xF000#16⟩

/-- Row `ADD Vx, nn` (R65). -/
def rowAddV : OpcodeRow := ⟨"ADD_Vx__nn", 0x7000#16, 0xF000#16⟩

/-- Row `LD I, nnn` (R65). -/
def rowLdI : OpcodeRow := ⟨"LD_I__nnn", 0xA000#16, 0xF000#16⟩

/-- Row `DRW Vx, Vy, n` (R65). -/
def rowDrw : OpcodeRow := ⟨"DRW_Vx__Vy__n", 0xD000#16, 0xF000#16⟩

/-- The six rows of the opcode map, mnemonics spelled as spec/opcode_table.json spells them (R65). -/
def opcodeTable : List OpcodeRow := [rowCls, rowJp, rowLdV, rowAddV, rowLdI, rowDrw]

/-- The row an instruction belongs to (R65). -/
def Instr.row : Instr → OpcodeRow
  | .cls => rowCls
  | .jp _ => rowJp
  | .ldV _ _ => rowLdV
  | .addV _ _ => rowAddV
  | .ldI _ => rowLdI
  | .drw _ _ _ => rowDrw

end Sys2Proof
end

