-- ==== Sys2Proof/Machine/State.lean ====
section
/-! DEFINITION. The architectural state of the core as plain data, its value after reset, and the reasons a step may stop
(spec/10_state.md R20 to R31, spec/60_exceptions.md R130). -/

namespace Sys2Proof.Machine

/-- `MEM` (R25): the bytes that are not 0, as (address, byte) pairs in one canonical form, `Memory.wf`. An address that is
not listed reads as `Memory.unlisted`. Equal memories are equal lists (notes/assumptions/14.md). -/
abbrev Memory := List Host.Cell

/-- What an unlisted address reads as: 0, the reset contents of every byte (R31). -/
def Memory.unlisted : Byte := 0#8

/-- The canonical form from an address on: addresses strictly rising, all of them in `MEM`, no entry that equals what an
unlisted address reads as. -/
def Memory.wfFrom : Nat → Memory → Bool
  | _, [] => true
  | from_, (a, b) :: rest =>
    decide (from_ ≤ a) && decide (a < 4096) && decide (b ≠ Memory.unlisted) && Memory.wfFrom (a + 1) rest

/-- The canonical form of a memory. -/
def Memory.wf (m : Memory) : Bool := Memory.wfFrom 0 m

/-- `DISP` (R26): 32 rows of 64 cells, row first; `true` is lit, `false` unlit (decision D15). -/
abbrev Display := Vector (Vector Bool 64) 32

/-- The display with every cell unlit (R26, R31, R90). -/
def Display.clear : Display := Vector.replicate 32 (Vector.replicate 64 false)

/-- The three causes of a fault (R130). -/
inductive FaultCause where
  /-- Cause 1: the fetched word decodes to `Unknown(w)`; `info` is `w` (R133). -/
  | unknownOpcode
  /-- Cause 2: `PC + 1 > 0xFFF` at a fetch; `info` is `PC` (R131). -/
  | fetchOutOfBounds
  /-- Cause 3: a sprite row outside memory in `DRW`; `info` is `I` (R132). -/
  | spriteReadOutOfBounds
  deriving DecidableEq, Repr

/-- What the `FAULT` latch records: the cause and 16 bits of `info` (R28, R130). -/
structure FaultRecord where
  cause : FaultCause
  info : Word
  deriving DecidableEq, Repr

/-- The architectural state, all of it (R20). -/
structure State where
  /-- `V[0]` to `V[15]` (R21); `v[15]` is `VF`, the flags register (R22). -/
  v : Vector Byte 16
  /-- `PC`: the address of the next instruction word (R23). -/
  pc : Word
  /-- `I`: the index register (R24). -/
  i : Word
  /-- `MEM` (R25). -/
  mem : Memory
  /-- `DISP` (R26). -/
  disp : Display
  /-- `FAULT`: `none`, or the recorded fault; the core is halted once it is not `none` (R28). -/
  fault : Option FaultRecord
  deriving DecidableEq, Repr

/-- The state right after reset: every piece of state at zero, `FAULT` none (R31, R150). -/
def State.reset : State :=
  { v := Vector.replicate 16 0#8
    pc := 0x0000#16
    i := 0x0000#16
    mem := []
    disp := Display.clear
    fault := none }

/-- Why an access to memory gives no value. The three faults of the spec are NOT here: the spec gives each its effect (the
`FAULT` latch, R134), so each is a next state. `step` answers a fault in no state. -/
inductive Fault where
  /-- Raised by the read primitive `Memory.read` alone, for an address above 0xFFF (R41). Fetch and `DRW` turn it into the
  fault the spec gives them (R131, R132), so no step ends in it. Safe: no value is ever made up for such a read. -/
  | outOfBounds (addr : Nat)
  deriving DecidableEq, Repr

/-- Why an instruction has no meaning in this model. -/
inductive Refusal where
  /-- Raised by an arm of `exec` whose instruction has no meaning yet; no arm of this model answers it. Safe: nothing can be
  proved about a step that has no next state. -/
  | notModelled (mnemonic : String)
  deriving DecidableEq, Repr

/-- What one instruction or one cycle answers. -/
abbrev Result := Host.Outcome State Fault Refusal

end Sys2Proof.Machine
end

