-- ==== Sys2Proof/Machine/Ops.lean ====
section
/-! DEFINITION. The named operations over registers, memory and display, raising a fault, and instruction fetch
(spec/00_scope.md R7, spec/20_memory.md R41 to R56, spec/40_cycle_fetch_dispatch.md R81, spec/60_exceptions.md R134). -/

namespace Sys2Proof.Machine

/-! ### Registers -/

/-- `V[r]` (R7, R21). -/
def State.getV (s : State) (r : RegIndex) : Byte := s.v[r]

/-- `V[r] <- b`: no register is hardwired and none aliases another (R7, R21). -/
def State.setV (s : State) (r : RegIndex) (b : Byte) : State := { s with v := s.v.set r.val b r.isLt }

/-- `PC <- w` (R7, R23). -/
def State.setPc (s : State) (w : Word) : State := { s with pc := w }

/-- `I <- w` (R7, R24). -/
def State.setI (s : State) (w : Word) : State := { s with i := w }

/-- The state with its memory replaced. -/
def State.setMem (s : State) (m : Memory) : State := { s with mem := m }

/-- The state with its display replaced. -/
def State.setDisp (s : State) (d : Display) : State := { s with disp := d }

/-! ### Memory -/

/-- The byte a list of cells gives an address: its entry, or what an unlisted address reads as. -/
def Memory.lookup : Memory → Nat → Byte
  | [], _ => Memory.unlisted
  | (k, b) :: rest, a => if k = a then b else Memory.lookup rest a

/-- `MemRead(addr, 1)`: the byte, or out of bounds for an address above 0xFFF. The address is a natural number and is
never reduced or wrapped (R41; decisions D1, D9). -/
def Memory.read (m : Memory) (addr : Nat) : Except Fault Byte :=
  if addr ≤ 0xFFF then .ok (m.lookup addr) else .error (.outOfBounds addr)

/-- `MemRead(addr, n)`: `n` consecutive bytes, lowest address first; out of bounds when one of them is (R7, R41). No byte
is read, and none can be out of bounds, when `n = 0` (R119). -/
def Memory.readBytes (m : Memory) (addr : Nat) : Nat → Except Fault (List Byte)
  | 0 => .ok []
  | n + 1 =>
    match m.read addr with
    | .error e => .error e
    | .ok b =>
      match Memory.readBytes m (addr + 1) n with
      | .error e => .error e
      | .ok bs => .ok (b :: bs)

/-- The entry for an address put before `rest`, or left out where the byte is what an unlisted address reads as. -/
def Memory.consCell (a : Nat) (b : Byte) (rest : Memory) : Memory :=
  if b = Memory.unlisted then rest else (a, b) :: rest

/-- The cells with the byte at an address replaced, in canonical form. -/
def Memory.insert (a : Nat) (b : Byte) : Memory → Memory
  | [] => Memory.consCell a b []
  | (k, c) :: rest =>
    if a < k then Memory.consCell a b ((k, c) :: rest)
    else if a = k then Memory.consCell a b rest
    else (k, c) :: Memory.insert a b rest

/-- `MEM[addr] <- b`, for an address of `MEM`. Only the host's port calls it: the core never writes memory (R42, R54). -/
def Memory.write (m : Memory) (addr : Fin 4096) (b : Byte) : Memory := Memory.insert addr.val b m

/-! ### Display -/

/-- `DISP[row][col]` (R7, R26). -/
def Display.cell (d : Display) (col : Fin 64) (row : Fin 32) : Bool := d[row][col]

/-- `DISP[row][col] <- lit` (R7, R26). -/
def Display.setCell (d : Display) (col : Fin 64) (row : Fin 32) (lit : Bool) : Display :=
  d.set row.val (d[row].set col.val lit col.isLt) row.isLt

/-! ### Faults -/

/-- The cause code the host reads (R130; decision D3). -/
def FaultCause.code : FaultCause → Nat
  | .unknownOpcode => 1
  | .fetchOutOfBounds => 2
  | .spriteReadOutOfBounds => 3

/-- `raise <Fault>(info)`: writes the `FAULT` latch and nothing else; control goes nowhere, nothing is saved (R134). There
is no return from a fault: only reset clears the latch (R136). -/
def State.raise (s : State) (cause : FaultCause) (info : Word) : State :=
  { s with fault := some { cause := cause, info := info } }

/-- The core is halted: the latch is set (R28). -/
def State.isHalted (s : State) : Bool := s.fault.isSome

/-! ### Fetch -/

/-- `fetch()`: the big-endian word at `PC` and the state with `PC` advanced by 2; an access out of bounds gives no word and
no state, so nothing has changed when the fault is raised. There is no alignment check (R43, R45, R81). -/
def fetch (s : State) : Except Fault (Word × State) :=
  match s.mem.read s.pc.toNat with
  | .error e => .error e
  | .ok hi =>
    match s.mem.read (s.pc.toNat + 1) with
    | .error e => .error e
    | .ok lo => .ok (wordOfBytes hi lo, s.setPc (s.pc + 2#16))

/-! ### A harness, no part of the machine -/

/-- Memory with a byte placed at an address, if `MEM` has that address. -/
def Memory.place (m : Memory) (addr : Nat) (b : Byte) : Memory :=
  if h : addr < 4096 then m.write ⟨addr, h⟩ b else m

/-- The state with a word's two bytes where the next fetch reads them and the core not halted, so that the next cycle runs
that word (notes/assumptions/10.md). -/
def State.placeWord (s : State) (w : Word) : State :=
  { s with
    mem := (s.mem.place s.pc.toNat (wordHi w)).place (s.pc.toNat + 1) (wordLo w)
    fault := none }

end Sys2Proof.Machine
end

