-- ==== Sys2Proof/Machine/Operands.lean ====
section
/-! DEFINITION. The operand forms of the six instructions (spec/30_encoding.md R63, spec/42_register_immediate.md R103,
spec/43_draw_sprite.md R112, R113, R122). -/

namespace Sys2Proof.Machine

/-- `zext_16(nnn)`: bits 15:12 are 0 (R63, R103). -/
def zext16 (nnn : Addr12) : Word := nnn.setWidth 16

/-- The one addition of the core on registers: modulo 256, the carry recorded nowhere (R101, R103). -/
def addWrap (a b : Byte) : Byte := a + b

/-- `left = V[x] mod 64`: the origin's column wraps modulo the screen width (R103, R112). -/
def State.originCol (s : State) (x : RegIndex) : Nat := (s.getV x).toNat % Config.dispW

/-- `top = V[y] mod 32`: the origin's row wraps modulo the screen height (R103, R112). -/
def State.originRow (s : State) (y : RegIndex) : Nat := (s.getV y).toNat % Config.dispH

/-- The sprite operand of `DRW`: the `n` bytes `MEM[I], ..., MEM[I + n - 1]`, the core's only data read. The whole range is
read before the instruction changes anything, clipped rows included; `I` is not changed (R111, R113, R122). -/
def State.spriteRows (s : State) (n : Fin 16) : Except Fault (List Byte) := s.mem.readBytes s.i.toNat n.val

/-- Pixel `c` of a sprite byte, `(b >> (7 - c)) & 1`: bit 7 is the leftmost pixel (R44, R113). -/
def spritePixel (b : Byte) (c : Nat) : Bool := b.getLsbD (7 - c)

end Sys2Proof.Machine
end

