-- ==== Sys2Proof/Machine/ClearJump.lean ====
section
/-! DEFINITION. `CLS` and `JP` (spec/41_clear_and_jump.md). A meaning starts after fetch has advanced `PC` by 2 (R9). -/

namespace Sys2Proof.Machine

/-- `CLS`: every cell unlit; `VF` and all else unchanged (R90). -/
def execCls (s : State) : Result := .next (s.setDisp Display.clear)

/-- `JP nnn`: `PC <- zext_16(nnn)`, the advanced `PC` discarded, the target unchecked (R91). -/
def execJp (nnn : Addr12) (s : State) : Result := .next (s.setPc (zext16 nnn))

end Sys2Proof.Machine
end

