-- ==== Sys2Proof/Machine/Flags.lean ====
section
/-! DEFINITION. The one flag of the core: `VF`, the collision flag, which is the general register `V[0xF]` as well
(spec/10_state.md R22, spec/43_draw_sprite.md R112, R116, R117). No other instruction writes a flag. -/

namespace Sys2Proof.Machine

/-- `FLAG_REG`: the index of `VF` (R5, R22). -/
def flagReg : RegIndex := 15

/-- `VF <- 0`, step 1 of a draw (R112). -/
def State.clearFlag (s : State) : State := s.setV flagReg 0#8

/-- `VF <- 1` if a collision was recorded; otherwise `VF` keeps the 0 of step 1 (R117). -/
def State.recordCollision (s : State) (hit : Bool) : State := if hit then s.setV flagReg 1#8 else s

/-- A pixel collides where it is lit and the cell was lit before the XOR (R116). -/
def collides (old pixel : Bool) : Bool := pixel && old

/-- `cell xor pixel` (R103, R116). -/
def blend (old pixel : Bool) : Bool := old ^^ pixel

end Sys2Proof.Machine
end

