-- ==== Sys2Proof/Machine/Compositor.lean ====
section
/-! DEFINITION. The Sprite Compositor: XOR of an `n`-row, 8-column sprite into the display, clipped at the right and bottom
edges, with the pending flag of the collision test (spec/43_draw_sprite.md R113 to R117). -/

namespace Sys2Proof.Machine

/-- `DRAW_XLIMIT`, configuration: a pixel is drawn only where its column is strictly below this (R115; conflict C1, decision
D6). UNVERIFIED, unsafe: notes/assumptions/5.md. -/
def drawXLimit : Nat := 64

/-- `DRAW_YLIMIT`, configuration: a pixel is drawn only where its row is strictly below this (R115; conflict C1, decision
D6). UNVERIFIED, unsafe: notes/assumptions/5.md. -/
def drawYLimit : Nat := 32

/-- A drawn column exists on the display. -/
theorem drawXLimit_le : drawXLimit ≤ 64 := by decide

/-- A drawn row exists on the display. -/
theorem drawYLimit_le : drawYLimit ≤ 32 := by decide

/-- What the compositor works on inside one cycle: the display and the pending flag (R27, R117). -/
@[ext] structure Canvas where
  disp : Display
  hit : Bool
  deriving DecidableEq, Repr

/-- One pixel at `(sx, sy)`: skipped unless both coordinates are strictly below the draw limits; otherwise the old cell is
tested and the pixel XORed in (R114 to R116). -/
def compositePixel (sx sy : Nat) (pixel : Bool) (c : Canvas) : Canvas :=
  if h : sx < drawXLimit ∧ sy < drawYLimit then
    let col : Fin 64 := ⟨sx, Nat.lt_of_lt_of_le h.1 drawXLimit_le⟩
    let row : Fin 32 := ⟨sy, Nat.lt_of_lt_of_le h.2 drawYLimit_le⟩
    let old := c.disp.cell col row
    { disp := c.disp.setCell col row (blend old pixel)
      hit := c.hit || collides old pixel }
  else c

/-- The first `k` pixels of one sprite byte, leftmost first (R113). -/
def compositeCols (b : Byte) (left sy : Nat) : Nat → Canvas → Canvas
  | 0, c => c
  | k + 1, c => compositePixel (left + k) sy (spritePixel b k) (compositeCols b left sy k c)

/-- The rows of a sprite, from row `sy` of the screen downwards (R113, R114). -/
def compositeRows (left : Nat) : (sy : Nat) → List Byte → Canvas → Canvas
  | _, [], c => c
  | sy, b :: rest, c => compositeRows left (sy + 1) rest (compositeCols b left sy Config.spriteW c)

end Sys2Proof.Machine
end

