-- ==== Sys2Proof/Machine/Draw.lean ====
section
/-! DEFINITION. `DRW Vx, Vy, n` (spec/43_draw_sprite.md). A meaning starts after fetch has advanced `PC` by 2 (R9). -/

namespace Sys2Proof.Machine

/-- What a draw does once its rows are read: reset `VF`, then read the origin, then composite, then report (R110, R112,
R117). -/
def State.drawRows (s : State) (x y : RegIndex) (rows : List Byte) : State :=
  let s1 := s.clearFlag
  let c := compositeRows (s1.originCol x) (s1.originRow y) rows { disp := s1.disp, hit := false }
  (s1.setDisp c.disp).recordCollision c.hit

/-- `DRW Vx, Vy, n`: a sprite outside memory raises `SpriteReadOutOfBounds(I)` before anything changes; otherwise the draw
(R110, R111). -/
def execDrw (x y : RegIndex) (n : Fin 16) (s : State) : Result :=
  match s.spriteRows n with
  | .error _ => .next (s.raise .spriteReadOutOfBounds s.i)
  | .ok rows => .next (s.drawRows x y rows)

end Sys2Proof.Machine
end

