-- ==== Sys2Proof/Machine/Immediate.lean ====
section
/-! DEFINITION. `LD Vx, nn`, `ADD Vx, nn` and `LD I, nnn` (spec/42_register_immediate.md). A meaning starts after fetch has
advanced `PC` by 2 (R9). -/

namespace Sys2Proof.Machine

/-- `LD Vx, nn`: `V[x] <- nn`, `VF` an ordinary destination (R100). -/
def execLdV (x : RegIndex) (nn : Byte) (s : State) : Result := .next (s.setV x nn)

/-- `ADD Vx, nn`: `V[x] <- (V[x] + nn) mod 256`, no flag, `VF` an ordinary destination (R101). -/
def execAddV (x : RegIndex) (nn : Byte) (s : State) : Result := .next (s.setV x (addWrap (s.getV x) nn))

/-- `LD I, nnn`: `I <- zext_16(nnn)` (R102). -/
def execLdI (nnn : Addr12) (s : State) : Result := .next (s.setI (zext16 nnn))

end Sys2Proof.Machine
end

