-- ==== Sys2Proof/Machine/Cycle.lean ====
section
/-! DEFINITION. One cycle: fetch, decode, dispatch (spec/40_cycle_fetch_dispatch.md R80 to R85). -/

namespace Sys2Proof.Machine

/-- Dispatch: the handler of a known instruction, or `UnknownOpcode(w)` (R83, R133). -/
def dispatch (d : Decoded) (s : State) : Result :=
  match d with
  | .instr i => exec i s
  | .unknown w => .next (s.raise .unknownOpcode w)

/-- One cycle: nothing on a halted core (R85); otherwise fetch, which may raise `FetchOutOfBounds(PC)` with `PC` not
advanced (R131), then decode and dispatch on the state fetch left (R80). -/
def cycle (s : State) : Result :=
  if s.isHalted then .next s
  else
    match fetch s with
    | .error _ => .next (s.raise .fetchOutOfBounds s.pc)
    | .ok (w, fetched) => dispatch (decode w) fetched

end Sys2Proof.Machine
end

