-- ==== Sys2Proof/Machine/Step.lean ====
section
/-! DEFINITION. The step the host triggers, and the harness that places one instruction under it
(spec/70_reset_and_hazards.md R153). -/

namespace Sys2Proof.Machine

/-- One step is one cycle (R80, R153). -/
def step (s : State) : Host.Outcome State Fault Refusal := cycle s

/-- `s` with the `nbits` bits of `w`, numbered as spec/opcode_table.json numbers them, stored where the next fetch reads
them (notes/assumptions/10.md). -/
def State.withFetchWord (s : State) (nbits w : Nat) : State := s.placeWord (BitVec.ofNat 16 (w % 2 ^ nbits))

end Sys2Proof.Machine
end

