-- ==== Sys2Proof/Machine/Assembler.lean ====
section
/-! DEFINITION. The assembler's text (spec/30_encoding.md R69, R70): characters to lines, and instructions to characters.
Letter case and separators are the model's reading of the notation: DESIGN CHOICE, safe, notes/assumptions/17.md. -/

namespace Sys2Proof.Machine

/-- A piece of a line: a word, or the comma between two operands. -/
inductive Token where
  | word (cs : List Char)
  | comma
  deriving DecidableEq, Repr

/-- Why a line of text is no assembler line. -/
inductive AsmError where
  /-- No form of R69 has these pieces. -/
  | noSuchForm
  /-- A form of R69 with an operand outside its range: "an assembly error, not an encoding" (R69). -/
  | outOfRange
  deriving DecidableEq, Repr

/-- The word collected so far, in front of the pieces that follow it. -/
def flushWord (acc : List Char) (rest : List Token) : List Token :=
  match acc with
  | [] => rest
  | _ => .word acc.reverse :: rest

/-- The pieces of a line; `;` starts a comment (R69). -/
def tokenize : List Char → List Char → List Token
  | [], acc => flushWord acc []
  | c :: cs, acc =>
    if c = ';' then flushWord acc []
    else if c = ',' then flushWord acc (.comma :: tokenize cs [])
    else if c = ' ' ∨ c = '\t' then flushWord acc (tokenize cs [])
    else tokenize cs (c :: acc)

/-- The sixteen digits in order: the value of a digit is its place here (R69: "`x` = the hexadecimal digit"). -/
def hexDigits : List Char := "0123456789ABCDEF".toList

/-- The value of a hexadecimal digit of a number, either case. -/
def digit? (c : Char) : Option Nat := hexDigits.idxOf? c.toUpper

/-- The digits of a number in a base, from the value read so far. -/
def digits? (base : Nat) : Nat → List Char → Option Nat
  | value, [] => some value
  | value, c :: cs =>
    match digit? c with
    | some d => if d < base then digits? base (base * value + d) cs else none
    | none => none

/-- A number: hexadecimal with `0x`, or decimal (R69). -/
def number? : List Char → Option Nat
  | [] => none
  | ['0', 'x'] => none
  | '0' :: 'x' :: cs => digits? 16 0 cs
  | cs => digits? 10 0 cs

/-- A register `V0` to `V9`, `VA` to `VF`, letters in upper case as R69 writes them. -/
def register? : List Char → Option Nat
  | ['V', d] => hexDigits.idxOf? d
  | _ => none

/-- Numbers separated by commas, as `DB` takes them. -/
def numbers? : List Token → Option (List Nat)
  | [.word a] => (number? a).map fun n => [n]
  | .word a :: .comma :: rest =>
    match number? a, numbers? rest with
    | some n, some ns => some (n :: ns)
    | _, _ => none
  | _ => none

/-- A register and a number, in a form that takes both. -/
def registerNumber? (x n : List Char) (form : Nat → Nat → AsmLine) : Option AsmLine :=
  match register? x, number? n with
  | some x, some n => some (form x n)
  | _, _ => none

/-- The line some pieces make, if a form of R69 has them. -/
def formOf? : List Token → Option AsmLine
  | [.word ['C', 'L', 'S']] => some .cls
  | [.word ['J', 'P'], .word a] => (number? a).map .jp
  | [.word ['L', 'D'], .word ['I'], .comma, .word a] => (number? a).map .ldI
  | [.word ['L', 'D'], .word x, .comma, .word n] => registerNumber? x n .ldV
  | [.word ['A', 'D', 'D'], .word x, .comma, .word n] => registerNumber? x n .addV
  | [.word ['D', 'R', 'W'], .word x, .comma, .word y, .comma, .word n] =>
    match register? x, register? y, number? n with
    | some x, some y, some n => some (.drw x y n)
    | _, _, _ => none
  | .word ['D', 'B'] :: rest => (numbers? rest).map .db
  | _ => none

/-- One line of text: nothing on an empty line or a comment, the line otherwise, or the error by name (R69, R70). -/
def parseLine (text : List Char) : Except AsmError (Option AsmLine) :=
  match tokenize text [] with
  | [] => .ok none
  | tokens =>
    match formOf? tokens with
    | none => .error .noSuchForm
    | some line => if line.wellFormed then .ok (some line) else .error .outOfRange

/-- The hexadecimal digit of a number below 16. -/
def hexChar (n : Nat) : Char := hexDigits.getD n '0'

/-- `0x` and three hexadecimal digits. -/
def renderAddr (a : Addr12) : List Char :=
  ['0', 'x', hexChar (a.toNat / 256), hexChar (a.toNat / 16 % 16), hexChar (a.toNat % 16)]

/-- `0x` and two hexadecimal digits. -/
def renderByte (b : Byte) : List Char := ['0', 'x', hexChar (b.toNat / 16), hexChar (b.toNat % 16)]

/-- The text of an instruction (R69). -/
def renderInstr : Instr → List Char
  | .cls => ['C', 'L', 'S']
  | .jp nnn => ['J', 'P', ' '] ++ renderAddr nnn
  | .ldV x nn => ['L', 'D', ' ', 'V', hexChar x.val, ',', ' '] ++ renderByte nn
  | .addV x nn => ['A', 'D', 'D', ' ', 'V', hexChar x.val, ',', ' '] ++ renderByte nn
  | .ldI nnn => ['L', 'D', ' ', 'I', ',', ' '] ++ renderAddr nnn
  | .drw x y n =>
    ['D', 'R', 'W', ' ', 'V', hexChar x.val, ',', ' ', 'V', hexChar y.val, ',', ' ', '0', 'x', hexChar n.val]

end Sys2Proof.Machine
end

