-- ==== Sys2Proof/Machine/HostPort.lean ====
section
/-! DEFINITION. The host interface as abstract transactions, and the boot jump (spec/70_reset_and_hazards.md R151 to R154,
spec/20_memory.md R54, R55). -/

namespace Sys2Proof.Machine

/-- The registers the debug read port names (R153). -/
inductive DebugReg where
  | v (r : RegIndex)
  | pc
  | i
  deriving DecidableEq, Repr

/-- The transactions of the host; an argument out of range is no transaction and cannot be written down (R153; decision
D19). -/
inductive Transaction where
  | reset
  | hostWrite (addr : Fin 4096) (b : Byte)
  | hostRead (addr : Fin 4096)
  | hostDisplay (col : Fin 64) (row : Fin 32)
  | sizeQueries
  | step
  | status
  | debugRead (r : DebugReg)
  deriving DecidableEq, Repr

/-- What a transaction returns (R153). -/
inductive Response where
  | done
  | byte (b : Byte)
  | cell (lit : Bool)
  | sizes (memBytes columns rows : Nat)
  | faultLatch (f : Option FaultRecord)
  | reg8 (b : Byte)
  | reg16 (w : Word)
  deriving DecidableEq, Repr

/-- `host_write(addr, b)` (R54). -/
def State.hostWrite (s : State) (addr : Fin 4096) (b : Byte) : State := s.setMem (s.mem.write addr b)

/-- `debug_read` (R153). -/
def State.debugRead (s : State) : DebugReg → Response
  | .v r => .reg8 (s.getV r)
  | .pc => .reg16 s.pc
  | .i => .reg16 s.i

/-- One transaction between two cycles: the state after it and what the host is told. Only `reset`, `host_write` and
`step` change the state; the port works whether or not the core is halted (R54, R151, R153). -/
def transact (t : Transaction) (s : State) : Host.Outcome (State × Response) Fault Refusal :=
  match t with
  | .reset => .next (State.reset, .done)
  | .hostWrite addr b => .next (s.hostWrite addr b, .done)
  | .hostRead addr => .next (s, .byte (s.mem.lookup addr.val))
  | .hostDisplay col row => .next (s, .cell (s.disp.cell col row))
  | .sizeQueries => .next (s, .sizes Config.memSize Config.dispW Config.dispH)
  | .step =>
    match Sys2Proof.Machine.step s with
    | .next s' => .next (s', .done)
    | .fault r => .fault r
    | .refused r => .refused r
  | .status => .next (s, .faultLatch s.fault)
  | .debugRead r => .next (s, s.debugRead r)

/-- A sequence of transactions, one strictly after another (R154); the last state, or the first stop. -/
def runTransactions : List Transaction → State → Host.Outcome State Fault Refusal
  | [], s => .next s
  | t :: rest, s =>
    match transact t s with
    | .next (s', _) => runTransactions rest s'
    | .fault r => .fault r
    | .refused r => .refused r

/-- The two writes that put `JP base` at the reset entry point, one way to meet the boot requirement (R152; decision
D10). -/
def bootJump (base : Addr12) : List Transaction :=
  [.hostWrite 0 (wordHi (encode (.jp base))), .hostWrite 1 (wordLo (encode (.jp base)))]

end Sys2Proof.Machine
end

