-- ==== Sys2Proof/Safety.lean ====
section
/-! DEFINITION. The terms claims are stated in: which instruction runs next, how a run has ended, reachable states, the
invariant of the machine, and the footprint of a sprite (spec/10_state.md R33, spec/43_draw_sprite.md R118,
spec/70_reset_and_hazards.md R155). -/

namespace Sys2Proof.Machine

/-- The core is not halted and the next cycle fetches the word `w`. -/
def State.NextWord (s : State) (w : Word) : Prop :=
  s.fault = none ∧
    ∃ hi lo : Byte, s.mem.read s.pc.toNat = .ok hi ∧ s.mem.read (s.pc.toNat + 1) = .ok lo ∧ w = wordOfBytes hi lo

/-- The next cycle runs the instruction `i`. -/
def State.AboutToRun (s : State) (i : Instr) : Prop := ∃ w, s.NextWord w ∧ decode w = .instr i

/-- `k` cycles, one strictly after another, with no host transaction between them (R155); the last state, or the first
stop. -/
def runSteps : Nat → State → Result
  | 0, s => .next s
  | k + 1, s =>
    match step s with
    | .next t => runSteps k t
    | .fault r => .fault r
    | .refused r => .refused r

/-- How a run stands: still running, ended by the intended stop, or halted by an access that refutes a claim of correct
execution (R155; decision D14). -/
inductive RunStatus where
  | running
  | stopped (word : Word)
  | outOfBounds (cause : FaultCause)
  deriving DecidableEq, Repr

/-- The status of a run, read from the latch (R155). -/
def State.runStatus (s : State) : RunStatus :=
  match s.fault with
  | none => .running
  | some ⟨.unknownOpcode, w⟩ => .stopped w
  | some ⟨c, _⟩ => .outOfBounds c

/-- What a recorded fault says of the state it is recorded in: the offending word is unknown, and the recorded `PC` or `I`
is the register's value, which nothing changes after the halt (R130, R134, R136). -/
def State.FaultExplained (s : State) : Prop :=
  match s.fault with
  | none => True
  | some ⟨.unknownOpcode, w⟩ => decode w = .unknown w
  | some ⟨.fetchOutOfBounds, a⟩ => s.pc = a ∧ 0xFFF ≤ a.toNat
  | some ⟨.spriteReadOutOfBounds, a⟩ => s.i = a ∧ 0xFFF < a.toNat + 14

/-- The invariant of the machine: memory in canonical form, `PC` and `I` in their reachable ranges (R33), and a recorded
fault that the state explains. -/
def State.Inv (s : State) : Prop :=
  s.mem.wf = true ∧ s.pc.toNat ≤ 0x1000 ∧ s.i.toNat ≤ 0xFFF ∧ s.FaultExplained

/-- The states reset and the host's transactions lead to (R33, R155). -/
inductive Reachable : State → Prop where
  | reset : Reachable State.reset
  | transact {s s' : State} {t : Transaction} {r : Response} :
      Reachable s → transact t s = .next (s', r) → Reachable s'

/-- `n` rows at `I` lie inside memory; no row does so vacuously (R111, R119). -/
def State.SpriteInBounds (s : State) (n : Fin 16) : Prop := n.val = 0 ∨ s.i.toNat + n.val - 1 ≤ 0xFFF

/-- The column of a draw's origin: `V[x] mod 64`, read after `VF` is reset, so 0 for `x = 0xF` (R112). -/
def State.drawLeft (s : State) (x : RegIndex) : Nat := if x = 15 then 0 else (s.getV x).toNat % 64

/-- The row of a draw's origin: `V[y] mod 32`, read after `VF` is reset, so 0 for `y = 0xF` (R112). -/
def State.drawTop (s : State) (y : RegIndex) : Nat := if y = 15 then 0 else (s.getV y).toNat % 32

/-- The cell lies under the sprite's 8 × `n` pixels drawn at `(left, top)` (R118); cells exist only below 64 and 32, so
pixels past the edges are no cells. -/
def Inside (left top : Nat) (n : Fin 16) (col : Fin 64) (row : Fin 32) : Prop :=
  left ≤ col.val ∧ col.val ≤ left + 7 ∧ top ≤ row.val ∧ row.val + 1 ≤ top + n.val

/-- The sprite's pixel over a cell it covers: bit `7 - (col - left)` of `MEM[I + (row - top)]` (R118). -/
def State.spritePix (s : State) (left top : Nat) (col : Fin 64) (row : Fin 32) : Bool :=
  match s.mem.read (s.i.toNat + (row.val - top)) with
  | .ok b => b.getLsbD (7 - (col.val - left))
  | .error _ => false

end Sys2Proof.Machine
end

