-- ==== Sys2Proof/Certificates/Slice0/Obligations.lean ====
section
/-! DEFINITION. The statements about the model. Each docstring names the rule or section of spec/ it formalises; where a
clause rests on an inference or a decision the spec marks as its own, the docstring says so. A meaning runs after fetch has
advanced `PC` by 2 (R9), so a statement about `exec` says "`PC` unchanged" of every instruction but `JP`. -/

open Sys2Proof Sys2Proof.Machine

/-! ### Encoding -/

/-- Decoding an encoded instruction gives it back, every operand at every value; encoding what a known word decodes to gives
the word back; and the same of the bytes in memory, whatever follows them. The spec's own inference (30_encoding.md section
8, "[derived: from rule R61, rule R64]"). -/
def Obligations.EncodeDecodeInverse : Prop :=
  (∀ i : Instr, decode (encode i) = .instr i) ∧
  (∀ (w : Word) (i : Instr), decode w = .instr i → encode i = w) ∧
  (∀ (i : Instr) (rest : List Byte), decodeBytes (encodeBytes i ++ rest) = .ok (i, rest))

/-- The word of each instruction as a number, and its two bytes, the high one first (30_encoding.md section 8). -/
def Obligations.EncodedWordsAsNumbers : Prop :=
  (encode .cls).toNat = 0x00E0 ∧
  (∀ a : Addr12, (encode (.jp a)).toNat = 0x1000 + a.toNat) ∧
  (∀ (x : RegIndex) (b : Byte), (encode (.ldV x b)).toNat = 0x6000 + 256 * x.val + b.toNat) ∧
  (∀ (x : RegIndex) (b : Byte), (encode (.addV x b)).toNat = 0x7000 + 256 * x.val + b.toNat) ∧
  (∀ a : Addr12, (encode (.ldI a)).toNat = 0xA000 + a.toNat) ∧
  (∀ (x y : RegIndex) (k : Fin 16), (encode (.drw x y k)).toNat = 0xD000 + 256 * x.val + 16 * y.val + k.val) ∧
  (∀ i : Instr, ∃ hi lo : Byte, encodeBytes i = [hi, lo] ∧ (encode i).toNat = 256 * hi.toNat + lo.toNat)

/-- The opcode map over all 65536 words: a word is the instruction of a row iff `w & mask = match`, its operands are the
fields of R61, and a word of no row is unknown (30_encoding.md sections 2, 5 and 6). -/
def Obligations.DecodeByMaskAndMatch : Prop :=
  ∀ w : Word,
    (decode w = .instr .cls ↔ w &&& 0xFFFF#16 = 0x00E0#16) ∧
    (∀ nnn, decode w = .instr (.jp nnn) ↔ w &&& 0xF000#16 = 0x1000#16 ∧ nnn.toNat = w.toNat % 4096) ∧
    (∀ x nn, decode w = .instr (.ldV x nn) ↔
      w &&& 0xF000#16 = 0x6000#16 ∧ x.val = w.toNat / 256 % 16 ∧ nn.toNat = w.toNat % 256) ∧
    (∀ x nn, decode w = .instr (.addV x nn) ↔
      w &&& 0xF000#16 = 0x7000#16 ∧ x.val = w.toNat / 256 % 16 ∧ nn.toNat = w.toNat % 256) ∧
    (∀ nnn, decode w = .instr (.ldI nnn) ↔ w &&& 0xF000#16 = 0xA000#16 ∧ nnn.toNat = w.toNat % 4096) ∧
    (∀ x y n, decode w = .instr (.drw x y n) ↔
      w &&& 0xF000#16 = 0xD000#16 ∧ x.val = w.toNat / 256 % 16 ∧ y.val = w.toNat / 16 % 16 ∧ n.val = w.toNat % 16) ∧
    (decode w = .unknown w ↔
      w ≠ 0x00E0#16 ∧ w &&& 0xF000#16 ∉ [0x1000#16, 0x6000#16, 0x7000#16, 0xA000#16, 0xD000#16])

/-- The opcode map has 1 + 5 * 4096 = 20481 known words and 65536 - 20481 = 45055 unknown ones (30_encoding.md section 6). -/
def Obligations.KnownAndUnknownWordCounts : Prop :=
  Nat.card { w : Word // ∃ i, decode w = .instr i } = 20481 ∧ Nat.card { w : Word // decode w = .unknown w } = 45055

/-- Words written out from the spec's own worked encodings, in memory order (30_encoding.md section 8; the spec derives
them). -/
def Obligations.WorkedWordsDecode : Prop :=
  decodeBytes [0x12#8, 0x00#8] = .ok (.jp 0x200#12, []) ∧
  decodeBytes [0x63#8, 0x7F#8] = .ok (.ldV 3 0x7F#8, []) ∧
  decodeBytes [0x7E#8, 0x01#8] = .ok (.addV 14 0x01#8, []) ∧
  decodeBytes [0xA2#8, 0xA0#8] = .ok (.ldI 0x2A0#12, []) ∧
  decodeBytes [0xD0#8, 0x15#8] = .ok (.drw 0 1 5, []) ∧
  decodeBytes [0xDA#8, 0xF0#8] = .ok (.drw 10 15 0, []) ∧
  decodeBytes [0x00#8, 0xE0#8] = .ok (.cls, []) ∧
  decodeBytes [0x00#8, 0xEE#8] = .error (.unknownOpcode 0x00EE#16)

/-- An assembler line is refused exactly when an operand is out of its range, and otherwise a line that names an instruction
gives the two bytes that decode to an instruction named by that line (30_encoding.md section 8; decision D12). -/
def Obligations.AssemblerRefusesOutOfRange : Prop :=
  (∀ l : AsmLine, l.assemble = none ↔ l.wellFormed = false) ∧
  (∀ (l : AsmLine) (bs : List Byte), l.assemble = some bs → (∀ data, l ≠ .db data) →
    ∃ i, decodeBytes bs = .ok (i, []) ∧ i.asm = l)

/-- Every instruction written in the assembler's text reads back as the line that names it (30_encoding.md section 8; decision
D12, log 17). -/
def Obligations.AssemblerTextReadsBack : Prop :=
  ∀ i : Instr, parseLine (renderInstr i) = .ok (some i.asm)

/-! ### CLS, JP and the immediates -/

/-- `CLS` (R90): its one word; every cell unlit, nothing else changed, twice is once; and a cycle that runs it leaves `PC` at
its address + 2. -/
def Obligations.ClsClearsDisplay : Prop :=
  (∀ w : Word, decode w = .instr .cls ↔ w = 0x00E0#16) ∧
  (∀ s : State, ∃ t, exec .cls s = .next t ∧ (∀ col row, t.disp.cell col row = false) ∧
    (∀ r, t.getV r = s.getV r) ∧ t.pc = s.pc ∧ t.i = s.i ∧ (∀ a, t.mem.read a = s.mem.read a) ∧ t.fault = s.fault ∧
    exec .cls t = .next t) ∧
  (∀ s : State, s.AboutToRun .cls → ∃ t, step s = .next t ∧ (∀ col row, t.disp.cell col row = false) ∧
    t.pc.toNat = s.pc.toNat + 2 ∧ (∀ r, t.getV r = s.getV r) ∧ t.i = s.i ∧ (∀ a, t.mem.read a = s.mem.read a) ∧
    t.fault = none)

/-- `JP nnn` (R91): its words; `PC` is `nnn` exactly and nothing else changes; a cycle that runs it discards the advanced
`PC`, the next fetch faults for the target 0xFFF and for no other, and a jump to itself leaves the state as it was. -/
def Obligations.JpSetsPc : Prop :=
  (∀ (w : Word) (nnn : Addr12), decode w = .instr (.jp nnn) ↔ w.toNat = 0x1000 + nnn.toNat) ∧
  (∀ (nnn : Addr12) (s : State), ∃ t, exec (.jp nnn) s = .next t ∧ t.pc.toNat = nnn.toNat ∧
    (∀ r, t.getV r = s.getV r) ∧ t.i = s.i ∧ (∀ a, t.mem.read a = s.mem.read a) ∧
    (∀ col row, t.disp.cell col row = s.disp.cell col row) ∧ t.fault = s.fault) ∧
  (∀ (s : State) (nnn : Addr12), s.AboutToRun (.jp nnn) → ∃ t, step s = .next t ∧ t.pc.toNat = nnn.toNat ∧
    (∀ r, t.getV r = s.getV r) ∧ t.i = s.i ∧ (∀ a, t.mem.read a = s.mem.read a) ∧
    (∀ col row, t.disp.cell col row = s.disp.cell col row) ∧ t.fault = none ∧
    (nnn = 0xFFF#12 → ∃ u, step t = .next u ∧ u.fault = some { cause := .fetchOutOfBounds, info := 0x0FFF#16 }) ∧
    (nnn ≠ 0xFFF#12 → ∃ w, t.NextWord w) ∧
    (s.pc.toNat = nnn.toNat → t = s))

/-- `LD Vx, nn` (R100): its words; `V[x]` is `nn` and nothing else changes, `VF` an ordinary destination. -/
def Obligations.LdVSetsRegister : Prop :=
  (∀ (w : Word) (x : RegIndex) (nn : Byte), decode w = .instr (.ldV x nn) ↔ w.toNat = 0x6000 + 256 * x.val + nn.toNat) ∧
  (∀ (x : RegIndex) (nn : Byte) (s : State), ∃ t, exec (.ldV x nn) s = .next t ∧ t.getV x = nn ∧
    (∀ r, r ≠ x → t.getV r = s.getV r) ∧ t.pc = s.pc ∧ t.i = s.i ∧ (∀ a, t.mem.read a = s.mem.read a) ∧
    (∀ col row, t.disp.cell col row = s.disp.cell col row) ∧ t.fault = s.fault)

/-- `ADD Vx, nn` (R101): its words; `V[x]` is the sum modulo 256 and nothing else changes, in particular no flag: `VF` keeps
its value unless it is the destination. That `VF` is then an ordinary one, against the source's "the flags register (0xF) is
left unchanged by this operation", is the spec's own inference (42_register_immediate.md section 2, "[derived: from 10_state.md
rule R21, rule R22]"; conflict C7) and the model's reading, log 22 (DEDUCED). -/
def Obligations.AddVWrapsWithoutFlag : Prop :=
  (∀ (w : Word) (x : RegIndex) (nn : Byte), decode w = .instr (.addV x nn) ↔ w.toNat = 0x7000 + 256 * x.val + nn.toNat) ∧
  (∀ (x : RegIndex) (nn : Byte) (s : State), ∃ t, exec (.addV x nn) s = .next t ∧
    (t.getV x).toNat = ((s.getV x).toNat + nn.toNat) % 256 ∧
    (∀ r, r ≠ x → t.getV r = s.getV r) ∧ t.pc = s.pc ∧ t.i = s.i ∧ (∀ a, t.mem.read a = s.mem.read a) ∧
    (∀ col row, t.disp.cell col row = s.disp.cell col row) ∧ t.fault = s.fault)

/-- `LD I, nnn` (R102): its words; `I` is `nnn` with bits 15:12 zero and nothing else changes. -/
def Obligations.LdISetsIndex : Prop :=
  (∀ (w : Word) (nnn : Addr12), decode w = .instr (.ldI nnn) ↔ w.toNat = 0xA000 + nnn.toNat) ∧
  (∀ (nnn : Addr12) (s : State), ∃ t, exec (.ldI nnn) s = .next t ∧ t.i.toNat = nnn.toNat ∧
    (∀ r, t.getV r = s.getV r) ∧ t.pc = s.pc ∧ (∀ a, t.mem.read a = s.mem.read a) ∧
    (∀ col row, t.disp.cell col row = s.disp.cell col row) ∧ t.fault = s.fault)

/-! ### DRW -/

/-- A draw whose sprite lies in memory completes, and its end state is the closed form: every covered cell XORed with its
pixel, `VF` 1 iff a lit pixel met a lit cell, nothing else changed. The closed form is the spec's own inference from the
pseudocode (43_draw_sprite.md section 2, "[derived: from rule R110, rule R114, rule R115, rule R116]"); it rests on decisions
D6 (limits 64 and 32, log 5), D7 (`VF` reset before the origin is read, log 6) and D20 (with `n = 0` nothing is read or drawn,
whatever `I` holds, log 13). -/
def Obligations.DrwClosedForm : Prop :=
  ∀ (x y : RegIndex) (n : Fin 16) (s : State), s.SpriteInBounds n →
    ∃ t, exec (.drw x y n) s = .next t ∧
      (∀ col row, Inside (s.drawLeft x) (s.drawTop y) n col row →
        t.disp.cell col row = (s.disp.cell col row ^^ s.spritePix (s.drawLeft x) (s.drawTop y) col row)) ∧
      (∀ col row, ¬Inside (s.drawLeft x) (s.drawTop y) n col row → t.disp.cell col row = s.disp.cell col row) ∧
      ((∃ col row, Inside (s.drawLeft x) (s.drawTop y) n col row ∧
          s.spritePix (s.drawLeft x) (s.drawTop y) col row = true ∧ s.disp.cell col row = true) → t.getV 15 = 1#8) ∧
      ((¬∃ col row, Inside (s.drawLeft x) (s.drawTop y) n col row ∧
          s.spritePix (s.drawLeft x) (s.drawTop y) col row = true ∧ s.disp.cell col row = true) → t.getV 15 = 0#8) ∧
      (∀ r, r ≠ 15 → t.getV r = s.getV r) ∧ t.pc = s.pc ∧ t.i = s.i ∧ (∀ a, t.mem.read a = s.mem.read a) ∧
      t.fault = s.fault

/-- What a `DRW` cannot change (R120), in every state and for every operand: `PC`, `I`, memory, `V[0]` to `V[0xE]`, and any
cell that is not the target of a lit pixel of the sprite. Where the sprite lies rests on the spec's decision D7 when `x` or
`y` is 0xF (log 6). -/
def Obligations.DrwFrame : Prop :=
  ∀ (x y : RegIndex) (n : Fin 16) (s t : State), exec (.drw x y n) s = .next t →
    t.pc = s.pc ∧ t.i = s.i ∧ (∀ a, t.mem.read a = s.mem.read a) ∧ (∀ r, r ≠ 15 → t.getV r = s.getV r) ∧
    (∀ col row, t.disp.cell col row ≠ s.disp.cell col row →
      Inside (s.drawLeft x) (s.drawTop y) n col row ∧ s.spritePix (s.drawLeft x) (s.drawTop y) col row = true)

/-- `DRW` with `n = 0` has one effect, `VF <- 0`, in every state, whatever `I` holds: no fault, no read, no cell. The spec's
own inference and decision (43_draw_sprite.md section 2; decision D20, log 13). -/
def Obligations.DrwZeroRowsOnlyClearsFlag : Prop :=
  ∀ (x y : RegIndex) (s : State), ∃ t, exec (.drw x y 0) s = .next t ∧ t.getV 15 = 0#8 ∧
    (∀ r, r ≠ 15 → t.getV r = s.getV r) ∧ t.pc = s.pc ∧ t.i = s.i ∧ (∀ a, t.mem.read a = s.mem.read a) ∧
    (∀ col row, t.disp.cell col row = s.disp.cell col row) ∧ t.fault = s.fault

/-- After a draw `VF` is 0 or 1, and it is 1 iff the draw turned a lit cell unlit (10_state.md section 2: "1 = any pixel was
erased by the XOR blit, 0 = none"; 43_draw_sprite.md section 2). With `n = 0`, whatever `I` holds, the draw completes by decision
D20 (log 13). -/
def Obligations.DrwFlagReportsErasedCell : Prop :=
  ∀ (x y : RegIndex) (n : Fin 16) (s : State), s.SpriteInBounds n →
    ∃ t, exec (.drw x y n) s = .next t ∧ (t.getV 15 = 0#8 ∨ t.getV 15 = 1#8) ∧
      (t.getV 15 = 1#8 ↔ ∃ col row, s.disp.cell col row = true ∧ t.disp.cell col row = false)

/-- The old value of `VF` never influences a draw that completes, not even with `x` or `y` 0xF. It rests on the spec's
decision D7, `VF` reset before the origin is read (43_draw_sprite.md section 2; log 6), and with `n = 0` on D20 (log 13). -/
def Obligations.DrwIgnoresOldFlag : Prop :=
  ∀ (x y : RegIndex) (n : Fin 16) (s : State) (b : Byte), s.SpriteInBounds n →
    exec (.drw x y n) (s.setV 15 b) = exec (.drw x y n) s

/-- Drawing the same sprite twice restores the display, and the second draw reports a collision iff some lit pixel of the
sprite covers a cell that was unlit before the first. The spec's own inference (43_draw_sprite.md section 3), with its second
half corrected for a display that is not clear under the sprite (log 21). For `x` or `y` 0xF, that both draws have one origin,
and where the footprint lies, rest on decision D7 (`VF` reset before the origin is read, log 6); which pixels are drawn rests on
decision D6 (limits 64 and 32, log 5), and that a draw with `n = 0` completes for any `I` on D20 (log 13). -/
def Obligations.DrwTwiceRestoresDisplay : Prop :=
  ∀ (x y : RegIndex) (n : Fin 16) (s : State), s.SpriteInBounds n →
    ∃ t u, exec (.drw x y n) s = .next t ∧ exec (.drw x y n) t = .next u ∧
      (∀ col row, u.disp.cell col row = s.disp.cell col row) ∧
      (u.getV 15 = 1#8 ↔ ∃ col row, Inside (s.drawLeft x) (s.drawTop y) n col row ∧
        s.spritePix (s.drawLeft x) (s.drawTop y) col row = true ∧ s.disp.cell col row = false)

/-- The second half of the spec's inference as its words have it, for ANY display: the second draw ends with `VF = 1` iff the
sprite has a lit pixel in its footprint (43_draw_sprite.md section 3). Expected to FAIL: a lit pixel over a lit cell
erases it first and lights it again without a collision (log 21). The footprint rests on decisions D6 and D7 (logs 5 and 6). -/
def Obligations.DrwTwiceFlagIffLitPixelOnAnyDisplay : Prop :=
  ∀ (x y : RegIndex) (n : Fin 16) (s t u : State), s.SpriteInBounds n →
    exec (.drw x y n) s = .next t → exec (.drw x y n) t = .next u →
      (u.getV 15 = 1#8 ↔ ∃ col row, Inside (s.drawLeft x) (s.drawTop y) n col row ∧
        s.spritePix (s.drawLeft x) (s.drawTop y) col row = true)

/-- One in-range pixel, wherever the draw limits lie (R116): the cell becomes its XOR with the pixel, a collision is recorded
iff pixel and OLD cell are both lit, every other cell keeps its value; a pixel of value 0 changes nothing, and neither does a sprite byte 0x00. -/
def Obligations.CompositePixelXorsOldCell : Prop :=
  (∀ (col : Fin 64) (row : Fin 32) (p : Bool) (c : Canvas), col.val < drawXLimit → row.val < drawYLimit →
    (compositePixel col.val row.val p c).disp.cell col row = (c.disp.cell col row ^^ p) ∧
    ((compositePixel col.val row.val p c).hit = true ↔ c.hit = true ∨ (p = true ∧ c.disp.cell col row = true)) ∧
    (∀ col' row', (col', row') ≠ (col, row) →
      (compositePixel col.val row.val p c).disp.cell col' row' = c.disp.cell col' row')) ∧
  (∀ (sx sy : Nat) (c : Canvas), compositePixel sx sy false c = c) ∧
  (∀ (left sy : Nat) (c : Canvas), compositeCols 0x00#8 left sy 8 c = c)

/-- A pixel at or past column 64 or row 32 is skipped: no cell changes, no collision, whether it is lit or not. It rests on
the spec's decision D6 about the limits (43_draw_sprite.md section 2; conflict C1, log 5). -/
def Obligations.PixelPastEdgeIsSkipped : Prop :=
  ∀ (sx sy : Nat) (p : Bool) (c : Canvas), 64 ≤ sx ∨ 32 ≤ sy → compositePixel sx sy p c = c

/-- A sprite that reaches past 0xFFF raises `SpriteReadOutOfBounds` with `info = I`, nothing else changed: `VF` not reset, no
cell drawn; in a cycle `PC` has advanced by 2. The spec's decisions D1, D2 and D4 (60_exceptions.md sections 1 and 2; logs 2
and 3). -/
def Obligations.SpriteOutOfBoundsFaults : Prop :=
  FaultCause.spriteReadOutOfBounds.code = 3 ∧
  (∀ (x y : RegIndex) (n : Fin 16) (s : State), 1 ≤ n.val → 0xFFF < s.i.toNat + n.val - 1 →
    exec (.drw x y n) s = .next { s with fault := some { cause := .spriteReadOutOfBounds, info := s.i } }) ∧
  (∀ (x y : RegIndex) (n : Fin 16) (s : State), s.AboutToRun (.drw x y n) → 1 ≤ n.val →
    0xFFF < s.i.toNat + n.val - 1 →
    step s = .next { s with
      pc := s.pc + 2#16
      fault := some { cause := .spriteReadOutOfBounds, info := s.i } })

/-! ### The cycle -/

/-- Instruction fetch is big-endian (R43): the byte at `PC` is bits 15:8 of the word, the byte at `PC + 1` is bits 7:0. -/
def Obligations.FetchIsBigEndian : Prop :=
  ∀ (s s' : State) (w : Word), fetch s = .ok (w, s') →
    s.mem.read s.pc.toNat = .ok (w.extractLsb' 8 8) ∧ s.mem.read (s.pc.toNat + 1) = .ok (w.extractLsb' 0 8)

/-- Fetch: for any two bytes at `PC` and `PC + 1`, odd `PC` included, it gives their word and advances `PC` by exactly 2,
with no wrap and no other change; with `PC + 1 > 0xFFF` it gives no word (40_cycle_fetch_dispatch.md section 2; decisions D1,
D8, D9). -/
def Obligations.FetchAdvancesPcByTwo : Prop :=
  (∀ (s : State) (hi lo : Byte), s.mem.read s.pc.toNat = .ok hi → s.mem.read (s.pc.toNat + 1) = .ok lo →
    ∃ (w : Word) (s' : State), fetch s = .ok (w, s') ∧ w.toNat = 256 * hi.toNat + lo.toNat ∧
      s'.pc.toNat = s.pc.toNat + 2 ∧ s'.v = s.v ∧ s'.i = s.i ∧ s'.mem = s.mem ∧ s'.disp = s.disp ∧
      s'.fault = s.fault) ∧
  (∀ s : State, 0xFFF ≤ s.pc.toNat → ∃ e, fetch s = .error e)

/-- A cycle that cannot fetch raises `FetchOutOfBounds` with `info = PC`; `PC` and all else are as before. The spec's
decisions D1 and D4 (60_exceptions.md section 1; logs 2 and 3). -/
def Obligations.FetchOutOfBoundsHalts : Prop :=
  FaultCause.fetchOutOfBounds.code = 2 ∧
  ∀ s : State, s.fault = none → 0xFFF ≤ s.pc.toNat →
    step s = .next { s with fault := some { cause := .fetchOutOfBounds, info := s.pc } }

/-- A step runs the decoded instruction on the state fetch left, and dispatch invokes exactly the one handler (R83): the
handler of a known instruction, `UnknownOpcode(w)` for `Unknown(w)`; dispatch itself changes nothing. -/
def Obligations.StepRunsDecodedInstruction : Prop :=
  (∀ (s : State) (hi lo : Byte) (i : Instr), s.fault = none → s.mem.read s.pc.toNat = .ok hi →
    s.mem.read (s.pc.toNat + 1) = .ok lo → decodeBytes [hi, lo] = .ok (i, []) →
    step s = exec i { s with pc := s.pc + 2#16 }) ∧
  (∀ (i : Instr) (s : State), dispatch (.instr i) s = exec i s) ∧
  (∀ (w : Word) (s : State),
    dispatch (.unknown w) s = .next { s with fault := some { cause := .unknownOpcode, info := w } })

/-- An unknown opcode is fatal (R133): the cycle raises cause 1 with the word, `PC` is the word's address + 2, no other state
has changed, every unknown word alike, and no number of further steps recovers from it. -/
def Obligations.UnknownOpcodeHalts : Prop :=
  ∀ (s : State) (w : Word), s.NextWord w → decode w = .unknown w →
    ∃ t, step s = .next t ∧ t.fault = some { cause := .unknownOpcode, info := w } ∧ FaultCause.unknownOpcode.code = 1 ∧
      t.pc.toNat = s.pc.toNat + 2 ∧ t.v = s.v ∧ t.i = s.i ∧ t.mem = s.mem ∧ t.disp = s.disp ∧
      ∀ (k : Nat) (u : State), runSteps k t = .next u → u.fault = t.fault

/-- Any number of steps of a halted core leaves the state as it is. The spec's decision D5 (40_cycle_fetch_dispatch.md section
4; log 4). -/
def Obligations.HaltedCoreStaysAsItIs : Prop :=
  ∀ (s : State) (k : Nat), s.fault ≠ none → runSteps k s = .next s

/-- No host transaction but `reset` clears or changes the latch of a halted core, or any register or cell; `reset` gives the
reset state from every state. The spec's decisions D5 and D16 (60_exceptions.md section 4, 70_reset_and_hazards.md section 1;
logs 4 and 12). -/
def Obligations.OnlyResetClearsFault : Prop :=
  (∀ (tr : Transaction) (s s' : State) (r : Response), transact tr s = .next (s', r) → s.fault ≠ none → tr ≠ .reset →
    s'.fault = s.fault ∧ s'.v = s.v ∧ s'.pc = s.pc ∧ s'.i = s.i ∧ s'.disp = s.disp) ∧
  (∀ s : State, transact .reset s = .next (State.reset, .done))

/-- Faults are precise: a cycle that ends with a fault recorded is one of three, and in each the whole state after it is the
state before with the latch written and `PC` as the table says. The spec's decisions D2, D3 and D4 (60_exceptions.md sections
1 to 3; logs 2, 3 and 18). -/
def Obligations.FaultsArePrecise : Prop :=
  ∀ (s t : State) (f : FaultRecord), step s = .next t → s.fault = none → t.fault = some f →
    (f.cause = .unknownOpcode ∧ s.NextWord f.info ∧ decode f.info = .unknown f.info ∧
      t = { s with pc := s.pc + 2#16, fault := some f }) ∨
    (f.cause = .fetchOutOfBounds ∧ f.info = s.pc ∧ 0xFFF ≤ s.pc.toNat ∧ t = { s with fault := some f }) ∨
    (f.cause = .spriteReadOutOfBounds ∧ f.info = s.i ∧
      (∃ x y n, s.AboutToRun (.drw x y n) ∧ 1 ≤ n.val ∧ 0xFFF < s.i.toNat + n.val - 1) ∧
      t = { s with pc := s.pc + 2#16, fault := some f })

/-- One cycle is a total function: every state, halted or not, reachable or not, has its one successor; no step stops
(00_scope.md section 4; 70_reset_and_hazards.md section 6, the spec's own inference). -/
def Obligations.EveryStateHasASuccessor : Prop :=
  ∀ s : State, ∃ t, step s = .next t

/-- No instruction but a draw out of bounds raises a fault: not overflow, not a jump anywhere, not an off-screen draw, not
`n = 0` (60_exceptions.md section 5). -/
def Obligations.OnlyOutOfBoundsDrawFaults : Prop :=
  ∀ (i : Instr) (s t : State), exec i s = .next t → t.fault ≠ s.fault →
    ∃ x y n, i = .drw x y n ∧ 1 ≤ n.val ∧ 0xFFF < s.i.toNat + n.val - 1

/-- The three immediates touch neither memory nor display and cannot fault, and `DRW` alone reads data memory; no instruction
stores (R104). Not reading is said so: with any other memory (and display) the instruction does the same. -/
def Obligations.OnlyDrawReadsDataMemory : Prop :=
  (∀ i : Instr, ((∃ x nn, i = .ldV x nn) ∨ (∃ x nn, i = .addV x nn) ∨ (∃ nnn, i = .ldI nnn)) →
    ∀ s : State, ∃ t, exec i s = .next t ∧ t.fault = s.fault ∧ t.mem = s.mem ∧ t.disp = s.disp ∧
      ∀ (m : Memory) (d : Display), exec i { s with mem := m, disp := d } = .next { t with mem := m, disp := d }) ∧
  (∀ i : Instr, (∀ x y n, i ≠ .drw x y n) → ∀ (s : State) (m : Memory),
    ∃ t, exec i s = .next t ∧ exec i { s with mem := m } = .next { t with mem := m }) ∧
  (∀ (i : Instr) (s t : State), exec i s = .next t → t.mem = s.mem)

/-- The core never writes memory: any number of steps leaves it the same list. Constancy across cycles is the spec's own
inference (20_memory.md section 2). -/
def Obligations.CoreNeverWritesMemory : Prop :=
  ∀ (k : Nat) (s t : State), runSteps k s = .next t → t.mem = s.mem

/-- Who writes what, over every step from every state: a register changes only under `LD`, `ADD` of that register, or, `VF`
alone, under `DRW`; `I` only under `LD I`; a cell only under `CLS` or `DRW`; `PC` goes on by 2 but under `JP`, a fetch fault
and a halt; memory never (10_state.md sections 2 to 6). -/
def Obligations.WritersOfEachPieceOfState : Prop :=
  ∀ s t : State, step s = .next t →
    (∀ r, t.getV r ≠ s.getV r →
      (∃ nn, s.AboutToRun (.ldV r nn)) ∨ (∃ nn, s.AboutToRun (.addV r nn)) ∨
      (r = 15 ∧ ∃ x y n, s.AboutToRun (.drw x y n))) ∧
    (t.i ≠ s.i → ∃ nnn, s.AboutToRun (.ldI nnn)) ∧
    (∀ col row, t.disp.cell col row ≠ s.disp.cell col row →
      s.AboutToRun .cls ∨ ∃ x y n, s.AboutToRun (.drw x y n)) ∧
    (t.pc.toNat ≠ s.pc.toNat + 2 → s.fault ≠ none ∨ 0xFFF ≤ s.pc.toNat ∨ ∃ nnn, s.AboutToRun (.jp nnn)) ∧
    (∀ a, t.mem.read a = s.mem.read a)

/-- The parity of `PC` (R34): reset makes it even, fetch keeps it and reads an odd `PC` as any other, `JP` sets it to its
target's, and so a run in which every jump's target has the parity of the first `PC` keeps that parity. -/
def Obligations.PcParityFollowsJumps : Prop :=
  State.reset.pc.toNat % 2 = 0 ∧
  (∀ s : State, s.pc.toNat + 1 ≤ 0xFFF → ∃ w s', fetch s = .ok (w, s') ∧ s'.pc.toNat % 2 = s.pc.toNat % 2) ∧
  (∀ (nnn : Addr12) (s t : State), exec (.jp nnn) s = .next t → t.pc.toNat % 2 = nnn.toNat % 2) ∧
  (∀ (k : Nat) (s t : State),
    (∀ j, j < k → ∀ (u : State) (nnn : Addr12), runSteps j s = .next u → u.AboutToRun (.jp nnn) →
      nnn.toNat % 2 = s.pc.toNat % 2) →
    runSteps k s = .next t → t.pc.toNat % 2 = s.pc.toNat % 2)

/-- Control flow depends on memory and `PC` alone: two runs that start with the same memory and `PC`, whatever their
registers and displays, are at the same `PC` after `k` steps, as long as neither has faulted. The spec's own inference
(41_clear_and_jump.md section 3). -/
def Obligations.ControlFlowIndependentOfData : Prop :=
  ∀ (k : Nat) (s s' t t' : State), s.mem = s'.mem → s.pc = s'.pc →
    runSteps k s = .next t → runSteps k s' = .next t' →
    t.fault = none → t'.fault = none → t.pc = t'.pc

/-- A program with no `JP` word in memory ends: whatever the state, the core is halted after 2049 cycles, since each cycle
that does not halt moves `PC` on by 2. The spec's own inference (70_reset_and_hazards.md section 6: the only way to run forever
is a cycle in the instruction-address sequence, with `JP` as the only branch). That a run which reaches the end of memory halts
there rests on decision D1 (log 2), and that a halted core stays so on decision D5 (log 4). -/
def Obligations.RunWithoutJumpHalts : Prop :=
  ∀ s : State,
    (∀ (a : Nat) (hi lo : Byte), s.mem.read a = .ok hi → s.mem.read (a + 1) = .ok lo →
      ∀ nnn, decode (wordOfBytes hi lo) ≠ .instr (.jp nnn)) →
    ∃ t, runSteps 2049 s = .next t ∧ t.fault ≠ none

/-- A run ended by the intended stop shows the stopping word and, at `PC - 2`, its address; a run ended otherwise shows the one
of the two out-of-bounds causes. The spec's decision D14 (70_reset_and_hazards.md section 4; log 18). -/
def Obligations.StopIdentifiesWordAndAddress : Prop :=
  ∀ s t : State, s.fault = none → step s = .next t →
    (∀ w, t.runStatus = .stopped w → s.NextWord w ∧ decode w = .unknown w ∧ s.pc.toNat = t.pc.toNat - 2) ∧
    (∀ c, t.runStatus = .outOfBounds c → c = .fetchOutOfBounds ∨ c = .spriteReadOutOfBounds)

/-! ### Reset, invariants, the host -/

/-- The reset state (R150): every register, `PC`, `I`, every memory byte 0, every cell unlit, `FAULT` none; the first fetch is
at 0x000. -/
def Obligations.ResetStateIsZero : Prop :=
  (∀ r, State.reset.getV r = 0x00#8) ∧ State.reset.pc = 0x0000#16 ∧ State.reset.i = 0x0000#16 ∧
  (∀ a, a ≤ 0xFFF → State.reset.mem.read a = .ok 0x00#8) ∧ (∀ col row, State.reset.disp.cell col row = false) ∧
  State.reset.fault = none

/-- The invariant holds at reset: canonical memory, `PC <= 0x1000`, `I <= 0xFFF`, no fault to explain. The canonical
form is about the model's own representation (log 14, DESIGN CHOICE). -/
def Obligations.InvariantHoldsAtReset : Prop := State.reset.Inv

/-- Every step keeps the invariant, from every state that has it: memory canonical, `PC <= 0x1000`, `I <= 0xFFF`, and a
recorded fault explained by the state it is recorded in. The bounds are the spec's own inference (10_state.md section 11);
that the latch stays explained rests on decisions D3 to D5 (logs 3, 4 and 18); that memory is canonical is about the model's own
representation (log 14, DESIGN CHOICE). -/
def Obligations.InvariantKeptByEveryStep : Prop :=
  ∀ s t : State, s.Inv → step s = .next t → t.Inv

/-- Every state that reset and host transactions lead to has `PC <= 0x1000` and `I <= 0xFFF`, and from `PC = 0x1000` the next
cycle of a running core raises `FetchOutOfBounds`. The spec's own inference (10_state.md section 11); the host has no write
port for `PC` or `I` (decision D11, log 11), and the fault at the end of memory is decision D1 (log 2). That memory is canonical
(`Memory.wf`) is a clause about the model's own representation, log 14 (DESIGN CHOICE), and no rule of the spec. -/
def Obligations.ReachableRegistersInRange : Prop :=
  ∀ s : State, Reachable s →
    s.pc.toNat ≤ 0x1000 ∧ s.i.toNat ≤ 0x0FFF ∧ s.mem.wf = true ∧
    (s.pc = 0x1000#16 → s.fault = none → step s = .next (s.raise .fetchOutOfBounds 0x1000#16))

/-- The boot hazard: after reset, whatever the host writes at addresses from 2 on, the first cycle halts with cause 1, word
0x0000 and `PC = 2`; a program loaded only at 0x200 is never reached. The spec's own inference (70_reset_and_hazards.md
section 5). -/
def Obligations.BootHazardHaltsAtOnce : Prop :=
  ∀ ts : List Transaction, (∀ t ∈ ts, ∃ a b, t = .hostWrite a b ∧ 2 ≤ a.val) →
    ∃ s u, runTransactions ts State.reset = .next s ∧ step s = .next u ∧
      u.fault = some { cause := .unknownOpcode, info := 0x0000#16 } ∧ u.pc = 0x0002#16

/-- Writing `JP base` at 0x000 meets the boot requirement: the first cycle after reset leaves `PC = base`, not halted. The
spec's decision D10 (70_reset_and_hazards.md section 2; log 9). -/
def Obligations.BootJumpReachesBase : Prop :=
  ∀ base : Addr12, ∃ s u, runTransactions (bootJump base) State.reset = .next s ∧ step s = .next u ∧
    u.pc.toNat = base.toNat ∧ u.fault = none

/-- One byte of memory: an address up to 0xFFF reads as a byte, an address above is out of bounds, never a value and never a
wrap. The spec's decision D1 (20_memory.md section 2; log 2). -/
def Obligations.MemoryReadIsBoundsChecked : Prop :=
  ∀ (m : Memory) (a : Nat),
    (a ≤ 0xFFF → ∃ b, m.read a = .ok b) ∧ (0xFFF < a → m.read a = .error (.outOfBounds a))

/-- The host memory port: what is written is read back, every other byte and every other piece of state is as before, halted
or not. The spec's decision D11 (20_memory.md section 8; log 11). That memory is canonical before and stays canonical
(`Memory.wf`) is about the model's own representation, log 14 (DESIGN CHOICE), and no rule of the spec. -/
def Obligations.HostWriteThenHostRead : Prop :=
  ∀ (s : State) (a : Fin 4096) (b : Byte), s.mem.wf = true →
    ∃ s', transact (.hostWrite a b) s = .next (s', .done) ∧
      transact (.hostRead a) s' = .next (s', .byte b) ∧
      (∀ k, k ≠ a → ∃ c, transact (.hostRead k) s = .next (s, .byte c) ∧ transact (.hostRead k) s' = .next (s', .byte c)) ∧
      s'.v = s.v ∧ s'.pc = s.pc ∧ s'.i = s.i ∧ s'.disp = s.disp ∧ s'.fault = s.fault ∧ s'.mem.wf = true

/-- The host's reads change nothing and answer what the state holds (70_reset_and_hazards.md section 3; decisions D11 and D17,
log 11). -/
def Obligations.HostReadsChangeNothing : Prop :=
  ∀ s : State,
    (∀ a : Fin 4096, ∃ b, s.mem.read a.val = .ok b ∧ transact (.hostRead a) s = .next (s, .byte b)) ∧
    (∀ col row, transact (.hostDisplay col row) s = .next (s, .cell (s.disp.cell col row))) ∧
    transact .sizeQueries s = .next (s, .sizes 4096 64 32) ∧
    transact .status s = .next (s, .faultLatch s.fault) ∧
    (∀ r, transact (.debugRead (.v r)) s = .next (s, .reg8 (s.getV r))) ∧
    transact (.debugRead .pc) s = .next (s, .reg16 s.pc) ∧
    transact (.debugRead .i) s = .next (s, .reg16 s.i)

/-- A host write is seen by the very next fetch: an instruction written at `PC` between two cycles is what the next cycle runs,
with nothing else changed by the writes. The spec's own inference and decision D11 (20_memory.md section 7; log 11). The premise
that memory is canonical is about the model's own representation (log 14, DESIGN CHOICE). -/
def Obligations.HostWriteSeenByNextFetch : Prop :=
  ∀ (s : State) (i : Instr) (a a' : Fin 4096), s.mem.wf = true → s.fault = none → a.val = s.pc.toNat →
    a'.val = s.pc.toNat + 1 →
    ∃ s', runTransactions [.hostWrite a (wordHi (encode i)), .hostWrite a' (wordLo (encode i))] s = .next s' ∧
      s' = { s with mem := s'.mem } ∧ step s' = exec i { s' with pc := s.pc + 2#16 }
end

