-- ==== Sys2Proof/Laws/Assembler.lean ====
section
/-! SUPPORT. Assembler text: the character of a digit reads back as the digit and is no separator (spec/30_encoding.md
R69). -/

namespace Sys2Proof.Machine

theorem digit?_hexChar {n : Nat} (h : n < 16) : digit? (hexChar n) = some n :=
  (by decide : ∀ n : Fin 16, digit? (hexChar n) = some n.val) ⟨n, h⟩

theorem register?_hexChar {n : Nat} (h : n < 16) : register? ['V', hexChar n] = some n :=
  (by decide : ∀ n : Fin 16, register? ['V', hexChar n] = some n.val) ⟨n, h⟩

/-- A digit neither ends a word nor starts a comment. -/
theorem tokenize_hexChar {n : Nat} (h : n < 16) (cs acc : List Char) :
    tokenize (hexChar n :: cs) acc = tokenize cs (hexChar n :: acc) := by
  have : ∀ n : Fin 16, hexChar n ≠ ';' ∧ hexChar n ≠ ',' ∧ hexChar n ≠ ' ' ∧ hexChar n ≠ '\t' := by decide
  obtain ⟨h1, h2, h3, h4⟩ := this ⟨n, h⟩
  simp [tokenize, h1, h2, h3, h4]

end Sys2Proof.Machine
end

