-- ==== Sys2Proof/Laws/Display.lean ====
section
/-! SUPPORT. The display: a cell after a cell is written, and the cleared display (spec/10_state.md R26). -/

namespace Sys2Proof.Machine

/-- A cell after a write: the written value in its own place, the old value in every other. -/
theorem Display.cell_setCell (d : Display) (col col' : Fin 64) (row row' : Fin 32) (lit : Bool) :
    (d.setCell col row lit).cell col' row' = if col' = col ∧ row' = row then lit else d.cell col' row' := by
  by_cases hr : row' = row
  · subst hr
    by_cases hc : col' = col
    · subst hc
      simp [Display.cell, Display.setCell]
    · have : col.val ≠ col'.val := fun e => hc (Fin.ext e.symm)
      simp [Display.cell, Display.setCell, hc, this]
  · have : row.val ≠ row'.val := fun e => hr (Fin.ext e.symm)
    simp [Display.cell, Display.setCell, hr, this]

@[simp] theorem Display.cell_clear (col : Fin 64) (row : Fin 32) : Display.clear.cell col row = false := by
  simp [Display.cell, Display.clear]

/-- Two displays with equal cells are equal. -/
theorem Display.ext_cell {d e : Display} (h : ∀ col row, d.cell col row = e.cell col row) : d = e := by
  apply Vector.ext
  intro r hr
  apply Vector.ext
  intro c hc
  exact h ⟨c, hc⟩ ⟨r, hr⟩

end Sys2Proof.Machine
end

