-- ==== Sys2Proof/Laws/Compositor.lean ====
section
/-! SUPPORT. What the compositor does, said once: it XORs a mask of pixels into the display and records a collision where
the mask meets a lit cell (spec/43_draw_sprite.md R116 to R118). -/

namespace Sys2Proof.Machine

/-- `c'` is `c` with the pixels `mask` XORed in, and a collision recorded where one of them met a lit cell. -/
def Canvas.Draws (c c' : Canvas) (mask : Fin 64 → Fin 32 → Bool) : Prop :=
  (∀ col row, c'.disp.cell col row = (c.disp.cell col row ^^ mask col row)) ∧
    (c'.hit = true ↔ c.hit = true ∨ ∃ col row, mask col row = true ∧ c.disp.cell col row = true)

theorem Canvas.Draws.refl (c : Canvas) : c.Draws c fun _ _ => false :=
  ⟨by simp, by simp⟩

theorem Canvas.Draws.congr {c c' : Canvas} {f g : Fin 64 → Fin 32 → Bool} (h : c.Draws c' f)
    (e : ∀ col row, f col row = g col row) : c.Draws c' g := by
  have : f = g := funext fun col => funext fun row => e col row
  exact this ▸ h

/-- Two drawings whose pixels never share a cell make one drawing: the second still meets the old cells (R118). -/
theorem Canvas.Draws.trans {c c' c'' : Canvas} {f g : Fin 64 → Fin 32 → Bool} (h : c.Draws c' f) (k : c'.Draws c'' g)
    (disjoint : ∀ col row, g col row = true → f col row = false) :
    c.Draws c'' fun col row => f col row || g col row := by
  constructor
  · intro col row
    rw [k.1, h.1]
    by_cases hg : g col row = true
    · simp [hg, disjoint col row hg]
    · simp [Bool.not_eq_true _ ▸ hg]
  · rw [k.2, h.2, or_assoc]
    refine or_congr_right ⟨?_, ?_⟩
    · rintro (⟨col, row, hf, hc⟩ | ⟨col, row, hg, hc⟩)
      · exact ⟨col, row, by simp [hf], hc⟩
      · exact ⟨col, row, by simp [hg], by simpa [h.1, disjoint col row hg] using hc⟩
    · rintro ⟨col, row, hfg, hc⟩
      rcases Bool.or_eq_true _ _ ▸ hfg with hf | hg
      · exact .inl ⟨col, row, hf, hc⟩
      · exact .inr ⟨col, row, hg, by simpa [h.1, disjoint col row hg] using hc⟩

/-- The mask of one pixel: its cell, if the display has it. -/
def pixelMask (sx sy : Nat) (pixel : Bool) (col : Fin 64) (row : Fin 32) : Bool :=
  decide (col.val = sx ∧ row.val = sy) && pixel

/-- One pixel draws its mask: off the display it draws nothing (R114 to R116). -/
theorem compositePixel_draws (sx sy : Nat) (pixel : Bool) (c : Canvas) :
    c.Draws (compositePixel sx sy pixel c) (pixelMask sx sy pixel) := by
  unfold compositePixel
  split
  · next h =>
    have hx : sx < 64 := h.1
    have hy : sy < 32 := h.2
    have key : ∀ (col : Fin 64) (row : Fin 32),
        (col.val = sx ∧ row.val = sy) ↔ (col = ⟨sx, hx⟩ ∧ row = ⟨sy, hy⟩) := by
      intro col row
      simp [Fin.ext_iff]
    constructor
    · intro col row
      simp only [pixelMask, key, Display.cell_setCell]
      split
      · next e => simp [blend, e.1, e.2]
      · next e => simp [e]
    · simp only [pixelMask, key, collides, Bool.or_eq_true, Bool.and_eq_true, decide_eq_true_eq]
      refine or_congr_right ⟨fun e => ⟨_, _, ⟨⟨rfl, rfl⟩, e.1⟩, e.2⟩, ?_⟩
      rintro ⟨col, row, ⟨⟨rfl, rfl⟩, hp⟩, hc⟩
      exact ⟨hp, hc⟩
  · next h =>
    refine (Canvas.Draws.refl c).congr fun col row => ?_
    have hc := col.isLt
    have hr := row.isLt
    have : ¬(col.val = sx ∧ row.val = sy) := fun e => h ⟨e.1 ▸ hc, e.2 ▸ hr⟩
    simp [pixelMask, this]

/-- The mask of the first `k` pixels of a sprite byte. -/
def colsMask (b : Byte) (left sy k : Nat) (col : Fin 64) (row : Fin 32) : Bool :=
  decide (row.val = sy ∧ left ≤ col.val ∧ col.val < left + k) && spritePixel b (col.val - left)

theorem compositeCols_draws (b : Byte) (left sy k : Nat) (c : Canvas) :
    c.Draws (compositeCols b left sy k c) (colsMask b left sy k) := by
  induction k with
  | zero =>
    refine (Canvas.Draws.refl c).congr fun col row => ?_
    simp [colsMask]
  | succ k ih =>
    refine (ih.trans (compositePixel_draws (left + k) sy (spritePixel b k) _) ?_).congr ?_
    · intro col row h
      simp only [pixelMask, Bool.and_eq_true, decide_eq_true_eq] at h
      have : ¬(row.val = sy ∧ left ≤ col.val ∧ col.val < left + k) := by omega
      simp [colsMask, this]
    · intro col row
      by_cases hk : col.val = left + k ∧ row.val = sy
      · simp [colsMask, pixelMask, hk.1, hk.2]
      · have : (row.val = sy ∧ left ≤ col.val ∧ col.val < left + (k + 1)) ↔
            (row.val = sy ∧ left ≤ col.val ∧ col.val < left + k) := by omega
        simp only [colsMask, pixelMask, this, hk, decide_false, Bool.false_and, Bool.or_false]

/-- The mask of a sprite's rows, the first of them at row `sy`. -/
def rowsMask (left sy : Nat) (rows : List Byte) (col : Fin 64) (row : Fin 32) : Bool :=
  decide (sy ≤ row.val ∧ row.val < sy + rows.length ∧ left ≤ col.val ∧ col.val < left + 8) &&
    spritePixel (rows[row.val - sy]?.getD 0#8) (col.val - left)

/-- Everything the compositor does: it draws the sprite's mask (R118). -/
theorem compositeRows_draws (left sy : Nat) (rows : List Byte) (c : Canvas) :
    c.Draws (compositeRows left sy rows c) (rowsMask left sy rows) := by
  induction rows generalizing sy c with
  | nil =>
    refine (Canvas.Draws.refl c).congr fun col row => ?_
    have : ¬(sy ≤ row.val ∧ row.val < sy ∧ left ≤ col.val ∧ col.val < left + 8) := by omega
    simp [rowsMask, this]
  | cons b rest ih =>
    refine ((compositeCols_draws b left sy Config.spriteW c).trans (ih (sy + 1) _) ?_).congr ?_
    · intro col row h
      simp only [rowsMask, Bool.and_eq_true, decide_eq_true_eq] at h
      have : row.val ≠ sy := by omega
      simp [colsMask, this]
    · intro col row
      by_cases hr : row.val = sy
      · simp [rowsMask, colsMask, hr, Config.spriteW]
      · by_cases hs : sy ≤ row.val
        · obtain ⟨j, hj⟩ : ∃ j, row.val - sy = j + 1 := ⟨row.val - sy - 1, by omega⟩
          have hj' : row.val - (sy + 1) = j := by omega
          have : (sy ≤ row.val ∧ row.val < sy + (rest.length + 1) ∧ left ≤ col.val ∧ col.val < left + 8) ↔
              (sy + 1 ≤ row.val ∧ row.val < sy + 1 + rest.length ∧ left ≤ col.val ∧ col.val < left + 8) := by omega
          simp only [rowsMask, colsMask, hr, hj, hj', List.length_cons, List.getElem?_cons_succ, this, false_and,
            decide_false, Bool.false_and, Bool.false_or]
        · have h1 : ¬(sy + 1 ≤ row.val ∧ row.val < sy + 1 + rest.length ∧ left ≤ col.val ∧ col.val < left + 8) := by omega
          have h2 : ¬(sy ≤ row.val ∧ row.val < sy + (rest.length + 1) ∧ left ≤ col.val ∧ col.val < left + 8) := by omega
          simp only [rowsMask, colsMask, hr, List.length_cons, h1, h2, false_and, decide_false, Bool.false_and,
            Bool.or_false]

end Sys2Proof.Machine
end

