-- ==== Sys2Proof/Laws/Memory.lean ====
section
/-! SUPPORT. Memory: what a read gives, a read after a write, the canonical form kept by every memory operation, and what
reading several bytes gives (spec/20_memory.md R41, R54). -/

namespace Sys2Proof.Machine

/-! ### Reading one byte -/

theorem Memory.read_of_le (m : Memory) {a : Nat} (h : a ≤ 0xFFF) : m.read a = .ok (m.lookup a) := by
  simp [Memory.read, h]

theorem Memory.read_of_gt (m : Memory) {a : Nat} (h : 0xFFF < a) : m.read a = .error (.outOfBounds a) := by
  simp [Memory.read, Nat.not_le.2 h]

/-- Everything a read can do: the byte of an address of `MEM`, or out of bounds (R41). -/
theorem Memory.read_eq_ok_iff (m : Memory) (a : Nat) (b : Byte) : m.read a = .ok b ↔ a ≤ 0xFFF ∧ m.lookup a = b := by
  by_cases h : a ≤ 0xFFF <;> simp [Memory.read, h]

/-! ### Writing one byte -/

theorem Memory.lookup_consCell (k : Nat) (b : Byte) (rest : Memory) (a : Nat) (h : a = k → rest.lookup a = 0#8) :
    (Memory.consCell k b rest).lookup a = if a = k then b else rest.lookup a := by
  unfold Memory.consCell Memory.unlisted
  split
  · next hb =>
    split
    · next ha => rw [h ha, hb]
    · rfl
  · simp [Memory.lookup, eq_comm]

theorem Memory.lookup_of_lt_wfFrom {m : Memory} {lo a : Nat} (hm : Memory.wfFrom lo m = true) (h : a < lo) :
    m.lookup a = 0#8 := by
  induction m generalizing lo with
  | nil => rfl
  | cons cell rest ih =>
    obtain ⟨k, c⟩ := cell
    simp only [Memory.wfFrom, Bool.and_eq_true, decide_eq_true_eq] at hm
    have : k ≠ a := by omega
    simp only [Memory.lookup, this, if_false]
    exact ih hm.2 (by omega)

/-- A read after a write, in canonical memory: the written byte in its own place, the old byte in every other. -/
theorem Memory.lookup_insert {m : Memory} {lo : Nat} (hm : Memory.wfFrom lo m = true) (k : Nat) (b : Byte) (a : Nat) :
    (Memory.insert k b m).lookup a = if a = k then b else m.lookup a := by
  induction m generalizing lo with
  | nil => exact Memory.lookup_consCell k b [] a fun _ => rfl
  | cons cell rest ih =>
    obtain ⟨j, c⟩ := cell
    simp only [Memory.wfFrom, Bool.and_eq_true, decide_eq_true_eq] at hm
    unfold Memory.insert
    split
    · next hlt =>
      refine Memory.lookup_consCell k b _ a fun h => ?_
      have : j ≠ a := by omega
      simp only [Memory.lookup, this, if_false]
      exact Memory.lookup_of_lt_wfFrom hm.2 (by omega)
    · split
      · next heq =>
        subst heq
        rw [Memory.lookup_consCell k b rest a fun h => Memory.lookup_of_lt_wfFrom hm.2 (by omega)]
        by_cases h : a = k
        · simp [h]
        · simp [h, Memory.lookup, Ne.symm h]
      · next hne =>
        simp only [Memory.lookup, ih hm.2]
        by_cases h : j = a
        · have : a ≠ k := by omega
          simp [h, this]
        · simp [h]

theorem Memory.wfFrom_mono {m : Memory} {lo lo' : Nat} (h : lo' ≤ lo) (hm : Memory.wfFrom lo m = true) :
    Memory.wfFrom lo' m = true := by
  cases m with
  | nil => rfl
  | cons cell rest =>
    simp only [Memory.wfFrom, Bool.and_eq_true, decide_eq_true_eq] at hm ⊢
    exact ⟨⟨⟨by omega, hm.1.1.2⟩, hm.1.2⟩, hm.2⟩

theorem Memory.wfFrom_consCell {rest : Memory} {lo k : Nat} (b : Byte) (hlo : lo ≤ k) (hk : k < 4096)
    (hr : Memory.wfFrom (k + 1) rest = true) : Memory.wfFrom lo (Memory.consCell k b rest) = true := by
  unfold Memory.consCell
  split
  · exact Memory.wfFrom_mono (by omega) hr
  · next hb => simp [Memory.wfFrom, hlo, hk, hb, hr]

theorem Memory.wfFrom_insert {m : Memory} {lo k : Nat} (b : Byte) (hlo : lo ≤ k) (hk : k < 4096)
    (hm : Memory.wfFrom lo m = true) : Memory.wfFrom lo (Memory.insert k b m) = true := by
  induction m generalizing lo with
  | nil => exact Memory.wfFrom_consCell b hlo hk rfl
  | cons cell rest ih =>
    obtain ⟨j, c⟩ := cell
    have hm' := hm
    simp only [Memory.wfFrom, Bool.and_eq_true, decide_eq_true_eq] at hm'
    unfold Memory.insert
    split
    · next hlt =>
      refine Memory.wfFrom_consCell b hlo hk ?_
      simp only [Memory.wfFrom, Bool.and_eq_true, decide_eq_true_eq]
      exact ⟨⟨⟨by omega, hm'.1.1.2⟩, hm'.1.2⟩, hm'.2⟩
    · split
      · next heq => exact Memory.wfFrom_consCell b hlo hk (heq ▸ hm'.2)
      · next hne =>
        simp only [Memory.wfFrom, Bool.and_eq_true, decide_eq_true_eq]
        exact ⟨hm'.1, ih (by omega) hm'.2⟩

/-- A write keeps the canonical form. -/
theorem Memory.wf_write {m : Memory} (hm : m.wf = true) (a : Fin 4096) (b : Byte) : (m.write a b).wf = true :=
  Memory.wfFrom_insert b (Nat.zero_le _) a.isLt hm

/-- Placing a byte keeps the canonical form. -/
theorem Memory.wf_place {m : Memory} (hm : m.wf = true) (a : Nat) (b : Byte) : (m.place a b).wf = true := by
  unfold Memory.place
  split
  · exact Memory.wf_write hm _ b
  · exact hm

/-- The memory after reset is canonical. -/
theorem Memory.wf_reset : State.reset.mem.wf = true := rfl

/-- A read after a write to canonical memory (R54). -/
theorem Memory.lookup_write {m : Memory} (hm : m.wf = true) (a : Fin 4096) (b : Byte) (k : Nat) :
    (m.write a b).lookup k = if k = a.val then b else m.lookup k :=
  Memory.lookup_insert hm a.val b k

/-! ### Reading several bytes -/

/-- The bytes a read of `n` bytes gives where it is in bounds. -/
def Memory.bytes (m : Memory) (addr : Nat) : Nat → List Byte
  | 0 => []
  | n + 1 => m.lookup addr :: Memory.bytes m (addr + 1) n

@[simp] theorem Memory.length_bytes (m : Memory) (addr n : Nat) : (m.bytes addr n).length = n := by
  induction n generalizing addr with
  | zero => rfl
  | succ n ih => simp [Memory.bytes, ih]

theorem Memory.getElem?_bytes (m : Memory) (addr n k : Nat) (h : k < n) :
    (m.bytes addr n)[k]? = some (m.lookup (addr + k)) := by
  induction n generalizing addr k with
  | zero => omega
  | succ n ih =>
    cases k with
    | zero => simp [Memory.bytes]
    | succ k =>
      simp only [Memory.bytes, List.getElem?_cons_succ]
      rw [ih (addr + 1) k (by omega)]
      congr 2
      omega

theorem Memory.readBytes_of_le (m : Memory) (addr n : Nat) (h : n = 0 ∨ addr + n - 1 ≤ 0xFFF) :
    m.readBytes addr n = .ok (m.bytes addr n) := by
  induction n generalizing addr with
  | zero => rfl
  | succ n ih =>
    rw [Memory.readBytes, m.read_of_le (by omega), ih (addr + 1) (by omega)]
    rfl

theorem Memory.readBytes_of_gt (m : Memory) (addr n : Nat) (hn : n ≠ 0) (h : 0xFFF < addr + n - 1) :
    ∃ e, m.readBytes addr n = .error e := by
  induction n generalizing addr with
  | zero => exact absurd rfl hn
  | succ n ih =>
    rw [Memory.readBytes]
    by_cases ha : addr ≤ 0xFFF
    · rw [m.read_of_le ha]
      obtain ⟨e, he⟩ := ih (addr + 1) (by omega) (by omega)
      exact ⟨e, by rw [he]⟩
    · rw [m.read_of_gt (by omega)]
      exact ⟨_, rfl⟩

end Sys2Proof.Machine
end

