-- ==== Sys2Proof/Laws/State.lean ====
section
/-! SUPPORT. One lemma per field of `State` per update, so that no proof unfolds a record update; reading a register after
a write; the state after reset, field by field. -/

namespace Sys2Proof.Machine

@[simp] theorem State.setV_v (s : State) (r : RegIndex) (b : Byte) : (s.setV r b).v = s.v.set r.val b r.isLt := rfl
@[simp] theorem State.setV_pc (s : State) (r : RegIndex) (b : Byte) : (s.setV r b).pc = s.pc := rfl
@[simp] theorem State.setV_i (s : State) (r : RegIndex) (b : Byte) : (s.setV r b).i = s.i := rfl
@[simp] theorem State.setV_mem (s : State) (r : RegIndex) (b : Byte) : (s.setV r b).mem = s.mem := rfl
@[simp] theorem State.setV_disp (s : State) (r : RegIndex) (b : Byte) : (s.setV r b).disp = s.disp := rfl
@[simp] theorem State.setV_fault (s : State) (r : RegIndex) (b : Byte) : (s.setV r b).fault = s.fault := rfl

@[simp] theorem State.setPc_v (s : State) (w : Word) : (s.setPc w).v = s.v := rfl
@[simp] theorem State.setPc_pc (s : State) (w : Word) : (s.setPc w).pc = w := rfl
@[simp] theorem State.setPc_i (s : State) (w : Word) : (s.setPc w).i = s.i := rfl
@[simp] theorem State.setPc_mem (s : State) (w : Word) : (s.setPc w).mem = s.mem := rfl
@[simp] theorem State.setPc_disp (s : State) (w : Word) : (s.setPc w).disp = s.disp := rfl
@[simp] theorem State.setPc_fault (s : State) (w : Word) : (s.setPc w).fault = s.fault := rfl

@[simp] theorem State.setI_v (s : State) (w : Word) : (s.setI w).v = s.v := rfl
@[simp] theorem State.setI_pc (s : State) (w : Word) : (s.setI w).pc = s.pc := rfl
@[simp] theorem State.setI_i (s : State) (w : Word) : (s.setI w).i = w := rfl
@[simp] theorem State.setI_mem (s : State) (w : Word) : (s.setI w).mem = s.mem := rfl
@[simp] theorem State.setI_disp (s : State) (w : Word) : (s.setI w).disp = s.disp := rfl
@[simp] theorem State.setI_fault (s : State) (w : Word) : (s.setI w).fault = s.fault := rfl

@[simp] theorem State.setMem_v (s : State) (m : Memory) : (s.setMem m).v = s.v := rfl
@[simp] theorem State.setMem_pc (s : State) (m : Memory) : (s.setMem m).pc = s.pc := rfl
@[simp] theorem State.setMem_i (s : State) (m : Memory) : (s.setMem m).i = s.i := rfl
@[simp] theorem State.setMem_mem (s : State) (m : Memory) : (s.setMem m).mem = m := rfl
@[simp] theorem State.setMem_disp (s : State) (m : Memory) : (s.setMem m).disp = s.disp := rfl
@[simp] theorem State.setMem_fault (s : State) (m : Memory) : (s.setMem m).fault = s.fault := rfl

@[simp] theorem State.setDisp_v (s : State) (d : Display) : (s.setDisp d).v = s.v := rfl
@[simp] theorem State.setDisp_pc (s : State) (d : Display) : (s.setDisp d).pc = s.pc := rfl
@[simp] theorem State.setDisp_i (s : State) (d : Display) : (s.setDisp d).i = s.i := rfl
@[simp] theorem State.setDisp_mem (s : State) (d : Display) : (s.setDisp d).mem = s.mem := rfl
@[simp] theorem State.setDisp_disp (s : State) (d : Display) : (s.setDisp d).disp = d := rfl
@[simp] theorem State.setDisp_fault (s : State) (d : Display) : (s.setDisp d).fault = s.fault := rfl

@[simp] theorem State.raise_v (s : State) (c : FaultCause) (w : Word) : (s.raise c w).v = s.v := rfl
@[simp] theorem State.raise_pc (s : State) (c : FaultCause) (w : Word) : (s.raise c w).pc = s.pc := rfl
@[simp] theorem State.raise_i (s : State) (c : FaultCause) (w : Word) : (s.raise c w).i = s.i := rfl
@[simp] theorem State.raise_mem (s : State) (c : FaultCause) (w : Word) : (s.raise c w).mem = s.mem := rfl
@[simp] theorem State.raise_disp (s : State) (c : FaultCause) (w : Word) : (s.raise c w).disp = s.disp := rfl
@[simp] theorem State.raise_fault (s : State) (c : FaultCause) (w : Word) : (s.raise c w).fault = some { cause := c, info := w } := rfl

/-! ### Registers -/

@[simp] theorem State.getV_setV_self (s : State) (r : RegIndex) (b : Byte) : (s.setV r b).getV r = b := by
  simp [State.getV]

theorem State.getV_setV_ne (s : State) {r q : RegIndex} (b : Byte) (h : q ≠ r) : (s.setV r b).getV q = s.getV q := by
  have : r.val ≠ q.val := fun e => h (Fin.ext e.symm)
  simp [State.getV, this]

/-- A register after a write: the written value in its own place, the old value in every other (R21). -/
theorem State.getV_setV (s : State) (r q : RegIndex) (b : Byte) :
    (s.setV r b).getV q = if q = r then b else s.getV q := by
  split
  · next h => subst h; simp
  · next h => exact s.getV_setV_ne b h

@[simp] theorem State.setV_setV (s : State) (r : RegIndex) (a b : Byte) : (s.setV r a).setV r b = s.setV r b := by
  simp [State.setV]

@[simp] theorem State.getV_setPc (s : State) (w : Word) (r : RegIndex) : (s.setPc w).getV r = s.getV r := rfl
@[simp] theorem State.getV_setI (s : State) (w : Word) (r : RegIndex) : (s.setI w).getV r = s.getV r := rfl
@[simp] theorem State.getV_setMem (s : State) (m : Memory) (r : RegIndex) : (s.setMem m).getV r = s.getV r := rfl
@[simp] theorem State.getV_setDisp (s : State) (d : Display) (r : RegIndex) : (s.setDisp d).getV r = s.getV r := rfl
@[simp] theorem State.getV_raise (s : State) (c : FaultCause) (w : Word) (r : RegIndex) : (s.raise c w).getV r = s.getV r := rfl

/-! ### The flag -/

theorem State.getV_clearFlag (s : State) (q : RegIndex) : s.clearFlag.getV q = if q = 15 then 0#8 else s.getV q :=
  s.getV_setV flagReg q 0#8

theorem State.getV_recordCollision (s : State) (hit : Bool) (q : RegIndex) :
    (s.recordCollision hit).getV q = if hit = true ∧ q = 15 then 1#8 else s.getV q := by
  cases hit <;> simp [State.recordCollision, State.getV_setV, flagReg]

@[simp] theorem State.clearFlag_pc (s : State) : s.clearFlag.pc = s.pc := rfl
@[simp] theorem State.clearFlag_i (s : State) : s.clearFlag.i = s.i := rfl
@[simp] theorem State.clearFlag_mem (s : State) : s.clearFlag.mem = s.mem := rfl
@[simp] theorem State.clearFlag_disp (s : State) : s.clearFlag.disp = s.disp := rfl
@[simp] theorem State.clearFlag_fault (s : State) : s.clearFlag.fault = s.fault := rfl

@[simp] theorem State.recordCollision_pc (s : State) (hit : Bool) : (s.recordCollision hit).pc = s.pc := by
  cases hit <;> rfl
@[simp] theorem State.recordCollision_i (s : State) (hit : Bool) : (s.recordCollision hit).i = s.i := by
  cases hit <;> rfl
@[simp] theorem State.recordCollision_mem (s : State) (hit : Bool) : (s.recordCollision hit).mem = s.mem := by
  cases hit <;> rfl
@[simp] theorem State.recordCollision_disp (s : State) (hit : Bool) : (s.recordCollision hit).disp = s.disp := by
  cases hit <;> rfl
@[simp] theorem State.recordCollision_fault (s : State) (hit : Bool) : (s.recordCollision hit).fault = s.fault := by
  cases hit <;> rfl

/-! ### The halt -/

theorem State.isHalted_iff (s : State) : s.isHalted = true ↔ s.fault ≠ none := by
  simp [State.isHalted, Option.isSome_iff_ne_none]

theorem State.isHalted_eq_false_iff (s : State) : s.isHalted = false ↔ s.fault = none := by
  simp [State.isHalted]

/-! ### Reset -/

@[simp] theorem State.reset_pc : State.reset.pc = 0#16 := rfl
@[simp] theorem State.reset_i : State.reset.i = 0#16 := rfl
@[simp] theorem State.reset_mem : State.reset.mem = [] := rfl
@[simp] theorem State.reset_disp : State.reset.disp = Display.clear := rfl
@[simp] theorem State.reset_fault : State.reset.fault = none := rfl

@[simp] theorem State.reset_getV (r : RegIndex) : State.reset.getV r = 0#8 := by
  simp [State.getV, State.reset]

end Sys2Proof.Machine
end

