-- ==== Sys2Proof/Laws/Draw.lean ====
section
/-! SUPPORT. Everything `DRW` can do: the read of its rows, and the state a draw leaves field by field
(spec/43_draw_sprite.md R111, R112, R118). -/

namespace Sys2Proof.Machine

/-- The sprite operand in bounds: its rows, lowest address first (R113). -/
theorem State.spriteRows_of_inBounds {s : State} {n : Fin 16} (h : s.SpriteInBounds n) :
    s.spriteRows n = .ok (s.mem.bytes s.i.toNat n.val) :=
  s.mem.readBytes_of_le _ _ h

/-- The sprite operand out of bounds: no row (R111). -/
theorem State.spriteRows_of_not_inBounds {s : State} {n : Fin 16} (h : ¬s.SpriteInBounds n) :
    ∃ e, s.spriteRows n = .error e :=
  s.mem.readBytes_of_gt _ _ (fun e => h (.inl e)) (by unfold State.SpriteInBounds at h; omega)

/-- A draw in bounds (R110). -/
theorem execDrw_of_inBounds (x y : RegIndex) {n : Fin 16} {s : State} (h : s.SpriteInBounds n) :
    execDrw x y n s = .next (s.drawRows x y (s.mem.bytes s.i.toNat n.val)) := by
  rw [execDrw, State.spriteRows_of_inBounds h]

/-- A draw out of bounds: the fault, and nothing else (R111). -/
theorem execDrw_of_not_inBounds (x y : RegIndex) {n : Fin 16} {s : State} (h : ¬s.SpriteInBounds n) :
    execDrw x y n s = .next (s.raise .spriteReadOutOfBounds s.i) := by
  obtain ⟨e, he⟩ := State.spriteRows_of_not_inBounds h
  rw [execDrw, he]

theorem State.originCol_clearFlag (s : State) (x : RegIndex) : s.clearFlag.originCol x = s.drawLeft x := by
  simp only [State.originCol, State.drawLeft, State.getV_clearFlag, Config.dispW]
  split <;> simp

theorem State.originRow_clearFlag (s : State) (y : RegIndex) : s.clearFlag.originRow y = s.drawTop y := by
  simp only [State.originRow, State.drawTop, State.getV_clearFlag, Config.dispH]
  split <;> simp

@[simp] theorem State.drawRows_pc (s : State) (x y : RegIndex) (rows : List Byte) : (s.drawRows x y rows).pc = s.pc := by
  simp [State.drawRows]

@[simp] theorem State.drawRows_i (s : State) (x y : RegIndex) (rows : List Byte) : (s.drawRows x y rows).i = s.i := by
  simp [State.drawRows]

@[simp] theorem State.drawRows_mem (s : State) (x y : RegIndex) (rows : List Byte) :
    (s.drawRows x y rows).mem = s.mem := by
  simp [State.drawRows]

@[simp] theorem State.drawRows_fault (s : State) (x y : RegIndex) (rows : List Byte) :
    (s.drawRows x y rows).fault = s.fault := by
  simp [State.drawRows]

/-- Every cell after a draw: XORed with the sprite's mask (R118). -/
theorem State.drawRows_cell (s : State) (x y : RegIndex) (rows : List Byte) (col : Fin 64) (row : Fin 32) :
    (s.drawRows x y rows).disp.cell col row =
      (s.disp.cell col row ^^ rowsMask (s.drawLeft x) (s.drawTop y) rows col row) := by
  simp only [State.drawRows, State.recordCollision_disp, State.setDisp_disp, State.originCol_clearFlag,
    State.originRow_clearFlag]
  exact (compositeRows_draws _ _ rows _).1 col row

/-- The mask of the rows read in bounds, in the terms claims are stated in: the lit pixels over the cells they cover
(R118). -/
theorem State.rowsMask_bytes_iff {s : State} {n : Fin 16} (h : s.SpriteInBounds n) (left top : Nat) (col : Fin 64)
    (row : Fin 32) :
    rowsMask left top (s.mem.bytes s.i.toNat n.val) col row = true ↔
      Inside left top n col row ∧ s.spritePix left top col row = true := by
  simp only [rowsMask, Memory.length_bytes, Bool.and_eq_true, decide_eq_true_eq, Inside]
  have := n.isLt
  by_cases hi : top ≤ row.val ∧ row.val < top + n.val ∧ left ≤ col.val ∧ col.val < left + 8
  · have hb : s.i.toNat + (row.val - top) ≤ 0xFFF := by unfold State.SpriteInBounds at h; omega
    rw [Memory.getElem?_bytes _ _ _ _ (by omega), State.spritePix, s.mem.read_of_le hb]
    simp only [Option.getD_some, spritePixel]
    exact and_congr_left fun _ => by omega
  · exact ⟨fun e => absurd e.1 hi, fun e => absurd ⟨e.1.2.2.1, by omega, e.1.1, by omega⟩ hi⟩

/-- A draw leaves every register but `VF` (R120). -/
theorem State.drawRows_getV_ne (s : State) (x y : RegIndex) (rows : List Byte) {q : RegIndex} (h : q ≠ 15) :
    (s.drawRows x y rows).getV q = s.getV q := by
  simp [State.drawRows, State.getV_recordCollision, State.getV_clearFlag, h]

/-- `VF` after a draw: 1 where a pixel of the sprite met a lit cell, else 0 (R117). -/
theorem State.drawRows_flag (s : State) (x y : RegIndex) (rows : List Byte) :
    ((s.drawRows x y rows).getV 15 = 1#8 ∧
      ∃ col row, rowsMask (s.drawLeft x) (s.drawTop y) rows col row = true ∧ s.disp.cell col row = true) ∨
    ((s.drawRows x y rows).getV 15 = 0#8 ∧
      ¬∃ col row, rowsMask (s.drawLeft x) (s.drawTop y) rows col row = true ∧ s.disp.cell col row = true) := by
  have hit := (compositeRows_draws (s.drawLeft x) (s.drawTop y) rows { disp := s.disp, hit := false }).2
  simp only [Bool.false_eq_true, false_or] at hit
  rw [← hit]
  cases h : (compositeRows (s.drawLeft x) (s.drawTop y) rows { disp := s.disp, hit := false }).hit <;>
    simp [State.drawRows, State.getV_recordCollision, State.originCol_clearFlag, State.originRow_clearFlag,
      State.getV_clearFlag, h]

end Sys2Proof.Machine
end

