-- ==== Sys2Proof/Laws/Words.lean ====
section
/-! SUPPORT. Words, bytes and fields as numbers, and what decoding answers (spec/30_encoding.md R61, R64). -/

namespace Sys2Proof

/-- Concatenation as a number (R6). -/
theorem toNat_append {m n : Nat} (a : BitVec m) (b : BitVec n) : (a ++ b).toNat = 2 ^ n * a.toNat + b.toNat := by
  rw [BitVec.toNat_append, ← Nat.shiftLeft_add_eq_or_of_lt b.isLt, Nat.shiftLeft_eq, Nat.mul_comm]

/-! ### Bytes -/

theorem toNat_wordOfBytes (hi lo : Byte) : (wordOfBytes hi lo).toNat = 256 * hi.toNat + lo.toNat :=
  toNat_append hi lo

theorem toNat_wordHi (w : Word) : (wordHi w).toNat = w.toNat / 256 := by
  have := w.isLt
  simp [wordHi, Nat.shiftRight_eq_div_pow]
  omega

theorem toNat_wordLo (w : Word) : (wordLo w).toNat = w.toNat % 256 := by
  simp [wordLo]

@[simp] theorem wordHi_wordOfBytes (hi lo : Byte) : wordHi (wordOfBytes hi lo) = hi := by
  apply BitVec.eq_of_toNat_eq
  rw [toNat_wordHi, toNat_wordOfBytes]
  omega

@[simp] theorem wordLo_wordOfBytes (hi lo : Byte) : wordLo (wordOfBytes hi lo) = lo := by
  apply BitVec.eq_of_toNat_eq
  rw [toNat_wordLo, toNat_wordOfBytes]
  omega

@[simp] theorem wordOfBytes_wordHi_wordLo (w : Word) : wordOfBytes (wordHi w) (wordLo w) = w := by
  apply BitVec.eq_of_toNat_eq
  rw [toNat_wordOfBytes, toNat_wordHi, toNat_wordLo]
  omega

/-! ### Fields -/

theorem toNat_fieldClass (w : Word) : (fieldClass w).toNat = w.toNat / 4096 := by
  have := w.isLt
  simp [fieldClass, Nat.shiftRight_eq_div_pow]
  omega

theorem val_fieldX (w : Word) : (fieldX w).val = w.toNat / 256 % 16 := by
  simp [fieldX, Nat.shiftRight_eq_div_pow]

theorem val_fieldY (w : Word) : (fieldY w).val = w.toNat / 16 % 16 := by
  simp [fieldY, Nat.shiftRight_eq_div_pow]

theorem val_fieldN (w : Word) : (fieldN w).val = w.toNat % 16 := by
  simp [fieldN]

theorem toNat_fieldNN (w : Word) : (fieldNN w).toNat = w.toNat % 256 := by
  simp [fieldNN]

theorem toNat_fieldNNN (w : Word) : (fieldNNN w).toNat = w.toNat % 4096 := by
  simp [fieldNNN]

theorem fieldClass_eq_iff (w : Word) (c : BitVec 4) : fieldClass w = c ↔ w.toNat / 4096 = c.toNat := by
  rw [← toNat_fieldClass, BitVec.toNat_inj]

/-! ### Formats -/

theorem toNat_formatA (c : BitVec 4) (nnn : Addr12) : (formatA c nnn).toNat = 4096 * c.toNat + nnn.toNat :=
  toNat_append c nnn

theorem toNat_formatXI (c : BitVec 4) (x : RegIndex) (nn : Byte) :
    (formatXI c x nn).toNat = 4096 * c.toNat + 256 * x.val + nn.toNat := by
  have h : (formatXI c x nn).toNat = 2 ^ 8 * (2 ^ 4 * c.toNat + x.val) + nn.toNat :=
    (toNat_append (c ++ BitVec.ofFin (w := 4) x) nn).trans (by rw [toNat_append]; rfl)
  omega

theorem toNat_formatXYN (c : BitVec 4) (x y : RegIndex) (n : Fin 16) :
    (formatXYN c x y n).toNat = 4096 * c.toNat + 256 * x.val + 16 * y.val + n.val := by
  have h : (formatXYN c x y n).toNat = 2 ^ 4 * (2 ^ 4 * (2 ^ 4 * c.toNat + x.val) + y.val) + n.val :=
    (toNat_append (c ++ BitVec.ofFin (w := 4) x ++ BitVec.ofFin (w := 4) y) (BitVec.ofFin (w := 4) n)).trans
      (by rw [toNat_append, toNat_append]; rfl)
  omega

/-! ### Decoding -/

/-- Everything decoding can answer: the word of one of the six rows with its fields, or the word itself, which is in no
row (R64). -/
theorem decode_cases (w : Word) :
    (w.toNat = 0x00E0 ∧ decode w = .instr .cls) ∨
    (w.toNat / 4096 = 0x1 ∧ decode w = .instr (.jp (fieldNNN w))) ∨
    (w.toNat / 4096 = 0x6 ∧ decode w = .instr (.ldV (fieldX w) (fieldNN w))) ∨
    (w.toNat / 4096 = 0x7 ∧ decode w = .instr (.addV (fieldX w) (fieldNN w))) ∨
    (w.toNat / 4096 = 0xA ∧ decode w = .instr (.ldI (fieldNNN w))) ∨
    (w.toNat / 4096 = 0xD ∧ decode w = .instr (.drw (fieldX w) (fieldY w) (fieldN w))) ∨
    (w.toNat ≠ 0x00E0 ∧ w.toNat / 4096 ∉ [0x1, 0x6, 0x7, 0xA, 0xD] ∧ decode w = .unknown w) := by
  have h0 : w = 0x00E0#16 ↔ w.toNat = 0x00E0 := by rw [← BitVec.toNat_inj]; simp
  unfold decode
  simp only [fieldClass_eq_iff, h0]
  split
  · simp_all
  split
  · simp_all
  split
  · simp_all
  split
  · simp_all
  split
  · simp_all
  split
  · simp_all
  · simp_all

end Sys2Proof
end

