-- ==== Sys2Proof/Laws/Fetch.lean ====
section
/-! SUPPORT. Everything fetch can do (spec/40_cycle_fetch_dispatch.md R81), the harness that places a word under it, and the
word the next cycle runs. -/

namespace Sys2Proof.Machine

/-- Fetch in bounds: the big-endian word, `PC` advanced by 2 (R81). -/
theorem fetch_of_le (s : State) (h : s.pc.toNat + 1 ≤ 0xFFF) :
    fetch s = .ok (wordOfBytes (s.mem.lookup s.pc.toNat) (s.mem.lookup (s.pc.toNat + 1)), s.setPc (s.pc + 2#16)) := by
  rw [fetch, s.mem.read_of_le (by omega), s.mem.read_of_le h]

/-- Fetch out of bounds: no word (R81). -/
theorem fetch_of_gt (s : State) (h : 0xFFF < s.pc.toNat + 1) : ∃ e, fetch s = .error e := by
  rw [fetch]
  by_cases h0 : s.pc.toNat ≤ 0xFFF
  · rw [s.mem.read_of_le h0, s.mem.read_of_gt h]
    exact ⟨_, rfl⟩
  · rw [s.mem.read_of_gt (by omega)]
    exact ⟨_, rfl⟩

/-- `PC + 2` does not wrap after a fetch in bounds (R23). -/
theorem toNat_pc_add_two (s : State) (h : s.pc.toNat + 1 ≤ 0xFFF) : (s.pc + 2#16).toNat = s.pc.toNat + 2 := by
  simp [BitVec.toNat_add]
  omega

/-- The core runs a word next exactly where it is not halted, `PC + 1` is in memory and the word stands there. -/
theorem State.nextWord_iff (s : State) (w : Word) :
    s.NextWord w ↔ s.fault = none ∧ s.pc.toNat + 1 ≤ 0xFFF ∧
      w = wordOfBytes (s.mem.lookup s.pc.toNat) (s.mem.lookup (s.pc.toNat + 1)) := by
  simp only [State.NextWord, Memory.read_eq_ok_iff]
  constructor
  · rintro ⟨hf, hi, lo, ⟨_, rfl⟩, ⟨h, rfl⟩, rfl⟩
    exact ⟨hf, h, rfl⟩
  · rintro ⟨hf, h, rfl⟩
    exact ⟨hf, _, _, ⟨by omega, rfl⟩, ⟨h, rfl⟩, rfl⟩

theorem State.NextWord.fetch_eq {s : State} {w : Word} (h : s.NextWord w) :
    fetch s = .ok (w, s.setPc (s.pc + 2#16)) := by
  obtain ⟨_, hpc, rfl⟩ := (s.nextWord_iff w).1 h
  exact fetch_of_le s hpc

/-- Everything fetch can do, from its answer: a word with the state advanced, in bounds; or none, out of bounds. -/
theorem fetch_cases (s : State) :
    (s.pc.toNat + 1 ≤ 0xFFF ∧
      fetch s = .ok (wordOfBytes (s.mem.lookup s.pc.toNat) (s.mem.lookup (s.pc.toNat + 1)), s.setPc (s.pc + 2#16))) ∨
    (0xFFF < s.pc.toNat + 1 ∧ ∃ e, fetch s = .error e) := by
  by_cases h : s.pc.toNat + 1 ≤ 0xFFF
  · exact .inl ⟨h, fetch_of_le s h⟩
  · exact .inr ⟨by omega, fetch_of_gt s (by omega)⟩

/-- The harness does what it is for: the placed word is what the next cycle runs. -/
theorem State.nextWord_placeWord (s : State) (w : Word) (hm : s.mem.wf = true) (h : s.pc.toNat + 1 ≤ 0xFFF) :
    (s.placeWord w).NextWord w := by
  rw [State.nextWord_iff]
  refine ⟨rfl, h, ?_⟩
  have h0 : s.pc.toNat < 4096 := by omega
  have h1 : s.pc.toNat + 1 < 4096 := by omega
  have hm1 := Memory.wf_write hm ⟨s.pc.toNat, h0⟩ (wordHi w)
  simp [State.placeWord, Memory.place, h0, h1, Memory.lookup_write hm1, Memory.lookup_write hm]

end Sys2Proof.Machine
end

