-- ==== Sys2Proof/Laws/Cycle.lean ====
section
/-! SUPPORT. Everything one cycle can do, from its answer (spec/40_cycle_fetch_dispatch.md R80), and what a host transaction
can do to the state (spec/70_reset_and_hazards.md R153). -/

namespace Sys2Proof.Machine

/-- Everything a cycle can do: nothing on a halted core; a fetch fault; an unknown word; an instruction (R80). -/
theorem step_cases (s : State) :
    (s.fault ≠ none ∧ step s = .next s) ∨
    (s.fault = none ∧ 0xFFF < s.pc.toNat + 1 ∧ step s = .next (s.raise .fetchOutOfBounds s.pc)) ∨
    (∃ w, s.NextWord w ∧ decode w = .unknown w ∧ step s = .next ((s.setPc (s.pc + 2#16)).raise .unknownOpcode w)) ∨
    (∃ w i, s.NextWord w ∧ decode w = .instr i ∧ step s = exec i (s.setPc (s.pc + 2#16))) := by
  by_cases hf : s.fault = none
  · have hh := s.isHalted_eq_false_iff.2 hf
    rcases fetch_cases s with ⟨h, he⟩ | ⟨h, e, he⟩
    · have hw := (s.nextWord_iff _).2 ⟨hf, h, rfl⟩
      rcases hd : decode (wordOfBytes (s.mem.lookup s.pc.toNat) (s.mem.lookup (s.pc.toNat + 1))) with i | w
      · refine .inr (.inr (.inr ⟨_, i, hw, hd, ?_⟩))
        simp [step, cycle, hh, he, hd, dispatch]
      · have hww := decode_cases (wordOfBytes (s.mem.lookup s.pc.toNat) (s.mem.lookup (s.pc.toNat + 1)))
        rw [hd] at hww
        simp only [Decoded.unknown.injEq, reduceCtorEq, and_false, false_or] at hww
        refine .inr (.inr (.inl ⟨_, hw, hww.2.2 ▸ hd, ?_⟩))
        simp [step, cycle, hh, he, hd, dispatch, hww.2.2]
    · refine .inr (.inl ⟨hf, h, ?_⟩)
      simp [step, cycle, hh, he]
  · refine .inl ⟨hf, ?_⟩
    simp [step, cycle, s.isHalted_iff.2 hf]

/-- A step on a state whose next word is known (R80, R83). -/
theorem State.NextWord.step_eq {s : State} {w : Word} (h : s.NextWord w) :
    step s = dispatch (decode w) (s.setPc (s.pc + 2#16)) := by
  simp [step, cycle, s.isHalted_eq_false_iff.2 h.1, h.fetch_eq]

/-- One cycle more, in front. -/
theorem runSteps_succ_of_next {s t : State} (h : step s = .next t) (k : Nat) : runSteps (k + 1) s = runSteps k t := by
  simp [runSteps, h]

/-- Everything a host transaction can do to the state (R153). -/
theorem transact_cases {t : Transaction} {s s' : State} {r : Response} (h : transact t s = .next (s', r)) :
    (t = .reset ∧ s' = State.reset) ∨ (∃ a b, t = .hostWrite a b ∧ s' = s.hostWrite a b) ∨
    (t = .step ∧ step s = .next s') ∨ (t ≠ .reset ∧ t ≠ .step ∧ (∀ a b, t ≠ .hostWrite a b) ∧ s' = s) := by
  cases t with
  | reset => exact .inl ⟨rfl, by simp [transact] at h; exact h.1.symm⟩
  | hostWrite a b => exact .inr (.inl ⟨a, b, rfl, by simp [transact] at h; exact h.1.symm⟩)
  | step =>
    refine .inr (.inr (.inl ⟨rfl, ?_⟩))
    simp only [transact] at h
    split at h <;> simp_all
  | _ => exact .inr (.inr (.inr ⟨by simp, by simp, by simp, by simp [transact] at h; exact h.1.symm⟩))

end Sys2Proof.Machine
end

