-- ==== Sys2Proof/Laws/Operands.lean ====
section
/-! SUPPORT. The operand forms as numbers (spec/42_register_immediate.md R103). -/

namespace Sys2Proof.Machine

/-- `zext_16` keeps the value (R63). -/
@[simp] theorem toNat_zext16 (nnn : Addr12) : (zext16 nnn).toNat = nnn.toNat := by
  have := nnn.isLt
  simp [zext16]
  omega

/-- The add is modulo 256 (R101). -/
theorem toNat_addWrap (a b : Byte) : (addWrap a b).toNat = (a.toNat + b.toNat) % 256 := by
  simp [addWrap]

end Sys2Proof.Machine
end

