-- ==== Sys2Proof/Laws/PerInstr.lean ====
section
/-! SUPPORT. Per instruction, as it is written: its word is in its own row of the opcode map and in no other
(spec/30_encoding.md R65: "A word `w` is the instruction of a row iff `w & mask = match`"). -/

namespace Sys2Proof.Laws.TableRow

/-- The word of the instruction is in its own row, and in no other row of the map. -/
def Statement (i : Instr) : Prop := opcodeTable.filter (fun r => r.matches (encode i)) = [i.row]

/-- The class-only mask keeps bits 15:12. -/
theorem and_class_mask (w : Word) : w &&& 0xF000#16 = BitVec.ofNat 16 (4096 * (w.toNat / 4096)) := by
  have h : (fieldClass w ++ 0#12 : BitVec 16) = w &&& 0xF000#16 := by
    apply BitVec.eq_of_getLsbD_eq
    intro k hk
    simp only [fieldClass, BitVec.getLsbD_append, BitVec.getLsbD_and]
    interval_cases k <;> simp
  rw [← h]
  apply BitVec.eq_of_toNat_eq
  have := w.isLt
  rw [BitVec.toNat_append]
  simp [toNat_fieldClass, Nat.shiftLeft_eq]
  omega

theorem cls : Statement .cls := by
  unfold Statement
  decide

theorem of_class {w : Word} {c : Nat} (hc : w.toNat / 4096 = c) (r : OpcodeRow) (hw : w ≠ 0x00E0#16)
    (h : ([rowJp, rowLdV, rowAddV, rowLdI, rowDrw].filter fun q => BitVec.ofNat 16 (4096 * c) == q.pattern) = [r]) :
    opcodeTable.filter (fun q => q.matches w) = [r] := by
  have h0 : rowCls.matches w = false := by
    have : w &&& 65535#16 = w := BitVec.and_allOnes
    simpa [OpcodeRow.matches, rowCls, this] using hw
  have hq : ∀ q ∈ [rowJp, rowLdV, rowAddV, rowLdI, rowDrw], q.matches w = (BitVec.ofNat 16 (4096 * c) == q.pattern) := by
    intro q hq
    have : q.mask = 0xF000#16 := by
      simp only [List.mem_cons, List.not_mem_nil, or_false] at hq
      rcases hq with rfl | rfl | rfl | rfl | rfl <;> rfl
    rw [OpcodeRow.matches, this, and_class_mask, hc]
  rw [opcodeTable, List.filter_cons_of_neg (by simp [h0]), List.filter_congr hq, h]

theorem ne_cls_of_class {w : Word} (h : w.toNat / 4096 ≠ 0) : w ≠ 0x00E0#16 := by
  rintro rfl
  exact h (by decide)

theorem jp (nnn : Addr12) : Statement (.jp nnn) := by
  have hc : (encode (.jp nnn)).toNat / 4096 = 0x1 := by
    rw [encode, toNat_formatA]; have := nnn.isLt; simp; omega
  exact of_class hc rowJp (ne_cls_of_class (by omega)) (by decide)

theorem ldV (x : RegIndex) (nn : Byte) : Statement (.ldV x nn) := by
  have hc : (encode (.ldV x nn)).toNat / 4096 = 0x6 := by
    rw [encode, toNat_formatXI]; have := nn.isLt; have := x.isLt; simp; omega
  exact of_class hc rowLdV (ne_cls_of_class (by omega)) (by decide)

theorem addV (x : RegIndex) (nn : Byte) : Statement (.addV x nn) := by
  have hc : (encode (.addV x nn)).toNat / 4096 = 0x7 := by
    rw [encode, toNat_formatXI]; have := nn.isLt; have := x.isLt; simp; omega
  exact of_class hc rowAddV (ne_cls_of_class (by omega)) (by decide)

theorem ldI (nnn : Addr12) : Statement (.ldI nnn) := by
  have hc : (encode (.ldI nnn)).toNat / 4096 = 0xA := by
    rw [encode, toNat_formatA]; have := nnn.isLt; simp; omega
  exact of_class hc rowLdI (ne_cls_of_class (by omega)) (by decide)

theorem drw (x y : RegIndex) (n : Fin 16) : Statement (.drw x y n) := by
  have hc : (encode (.drw x y n)).toNat / 4096 = 0xD := by
    rw [encode, toNat_formatXYN]; have := n.isLt; have := x.isLt; have := y.isLt; simp; omega
  exact of_class hc rowDrw (ne_cls_of_class (by omega)) (by decide)

end Sys2Proof.Laws.TableRow
end

