-- ==== Sys2Proof/Tests/Slice0.lean ====
section
/-! SUPPORT. Tests of one step or one operation each, with expected results from spec/95_test_vectors.md and the rules, and
one witness for the hypotheses of each statement of Certificates/Slice0/Obligations.lean. -/

namespace Sys2Proof.Tests

open Sys2Proof Sys2Proof.Machine

/-! ### Helpers -/

/-- The reset state with `PC`, `I`, registers, memory and lit cells put in. -/
def st (pc i : Word) (regs : List (RegIndex × Byte)) (mem : Memory) (lit : List (Fin 64 × Fin 32)) : State :=
  let s := regs.foldl (fun s rb => s.setV rb.1 rb.2) State.reset
  { s with pc := pc, i := i, mem := mem, disp := lit.foldl (fun d cr => d.setCell cr.1 cr.2 true) Display.clear }

/-- The next state, where there is one. -/
def after : Result → Option State
  | .next s => some s
  | _ => none

/-! ### WellFormed: one ill-formed term for each check (R69) -/

theorem test_wf_jp : (AsmLine.jp 0x1000).wellFormed = false ∧ (AsmLine.jp 0xFFF).wellFormed = true := by decide
theorem test_wf_ldV_reg : (AsmLine.ldV 16 0).wellFormed = false ∧ (AsmLine.ldV 15 0).wellFormed = true := by decide
theorem test_wf_ldV_byte : (AsmLine.ldV 0 256).wellFormed = false ∧ (AsmLine.ldV 0 255).wellFormed = true := by decide
theorem test_wf_addV_reg : (AsmLine.addV 16 0).wellFormed = false ∧ (AsmLine.addV 15 0).wellFormed = true := by decide
theorem test_wf_addV_byte : (AsmLine.addV 0 256).wellFormed = false ∧ (AsmLine.addV 0 255).wellFormed = true := by decide
theorem test_wf_ldI : (AsmLine.ldI 4096).wellFormed = false ∧ (AsmLine.ldI 4095).wellFormed = true := by decide
theorem test_wf_drw_x : (AsmLine.drw 16 0 0).wellFormed = false ∧ (AsmLine.drw 15 0 0).wellFormed = true := by decide
theorem test_wf_drw_y : (AsmLine.drw 0 16 0).wellFormed = false ∧ (AsmLine.drw 0 15 0).wellFormed = true := by decide
theorem test_wf_drw_n : (AsmLine.drw 0 0 16).wellFormed = false ∧ (AsmLine.drw 0 0 15).wellFormed = true := by decide
theorem test_wf_db : (AsmLine.db [0, 256]).wellFormed = false ∧ (AsmLine.db [0, 255]).wellFormed = true := by decide
theorem test_assemble_db : (AsmLine.db [0xF0, 0]).assemble = some [0xF0#8, 0#8] := by decide
theorem test_assemble_refuses : (AsmLine.drw 0 0 16).assemble = none := by decide

/-! ### Assembler text (R69) -/

theorem test_parse_ldV : parseLine "LD V3, 0x7F ; comment".toList = .ok (some (.ldV 3 0x7F)) := by decide
theorem test_parse_drw : parseLine "DRW VA, VF, 0".toList = .ok (some (.drw 10 15 0)) := by decide
theorem test_parse_db : parseLine "DB 0xF0, 16, 0x0f".toList = .ok (some (.db [0xF0, 16, 15])) := by decide
theorem test_parse_comment : parseLine "; a comment".toList = .ok none := by decide
theorem test_parse_outOfRange : parseLine "ADD VF, 256".toList = .error .outOfRange := by decide
theorem test_parse_noSuchForm : parseLine "LD Vg, 1".toList = .error .noSuchForm := by decide

/-! ### Decoding: words written out bit by bit from the encodings of R62 and R65 -/

theorem test_decode_cls : decode 0b0000000011100000#16 = .instr .cls := by decide
theorem test_decode_jp : decode 0b0001101010111100#16 = .instr (.jp 0xABC#12) := by decide
theorem test_decode_ldV : decode 0b0110001101111111#16 = .instr (.ldV 3 0x7F#8) := by decide
theorem test_decode_addV : decode 0b0111111011111110#16 = .instr (.addV 14 0xFE#8) := by decide
theorem test_decode_ldI : decode 0b1010001010100000#16 = .instr (.ldI 0x2A0#12) := by decide
theorem test_decode_drw : decode 0b1101010110100111#16 = .instr (.drw 5 10 7) := by decide
/-- V-DEC-2 to V-DEC-5 and V-DEC-20: class 0x0 knows one word, and class 0xE none. -/
theorem test_decode_unknown_class0 :
    [0x00E1#16, 0x00EE#16, 0x0000#16, 0x0FFF#16, 0xE0E0#16].map decode =
      [.unknown 0x00E1#16, .unknown 0x00EE#16, .unknown 0x0000#16, .unknown 0x0FFF#16, .unknown 0xE0E0#16] := by decide
/-- V-DEC-8, 9, 13, 16, 19: the families that do not exist here. -/
theorem test_decode_unknown_families :
    [0x2200#16, 0x3A00#16, 0x4A00#16, 0x5AB0#16, 0x8014#16, 0x9AB0#16, 0xB123#16, 0xC0FF#16, 0xE09E#16, 0xFFFF#16].all
      (fun w => decide (decode w = .unknown w)) = true := by decide
theorem test_decode_truncated : decodeBytes [0x12#8] = .error .truncated := by decide
/-- The word with all operand bits zero of each row, numbered as the table numbers it. -/
theorem test_decodeTableWord :
    [0x00E0, 0x1000, 0x6000, 0x7000, 0xA000, 0xD000, 0x0000].map (decodeTableWord 16) =
      [some .cls, some (.jp 0), some (.ldV 0 0), some (.addV 0 0), some (.ldI 0), some (.drw 0 0 0), none] := by decide
/-- No word belongs to two rows of the opcode map: two patterns differ where both masks look (R64). -/
theorem test_rows_disjoint :
    opcodeTable.Pairwise (fun r q => r.pattern &&& (r.mask &&& q.mask) ≠ q.pattern &&& (r.mask &&& q.mask)) := by decide

/-! ### Instructions -/

/-- V-CLS-1: lit cells go, `VF` stays. -/
theorem test_cls : (after (exec .cls (st 0x302 0x123 [(15, 1)] [] [(0, 0), (63, 31)]))).map
    (fun t => (t.disp.cell 0 0, t.disp.cell 63 31, t.getV 15)) = some (false, false, 1#8) := by decide
/-- V-JP-3: an odd target. -/
theorem test_jp_odd : (after (exec (.jp 3) (st 0x302 0 [] [] []))).map (fun t => t.pc) = some 0x0003#16 := by decide
/-- V-LD-2: `VF` is an ordinary destination. -/
theorem test_ldV_flag : (after (exec (.ldV 15 0x80) (st 0 0 [(15, 1)] [] []))).map (fun t => t.getV 15) = some 0x80#8 := by
  decide
/-- V-ADD-2: the sum wraps and `VF` keeps its 1. -/
theorem test_addV_wraps : (after (exec (.addV 1 2) (st 0 0 [(1, 0xFF), (15, 1)] [] []))).map
    (fun t => (t.getV 1, t.getV 15)) = some (0x01#8, 0x01#8) := by decide
/-- V-ADD-8: `VF` as destination. -/
theorem test_addV_flag : (after (exec (.addV 15 0xFE) (st 0 0 [(15, 7)] [] []))).map (fun t => t.getV 15) = some 0x05#8 := by
  decide
/-- V-LDI-3: bits 15:12 become 0. -/
theorem test_ldI : (after (exec (.ldI 0xFFF) (st 0 0xF000 [] [] []))).map (fun t => t.i) = some 0x0FFF#16 := by decide
/-- V-DRW-13: one collision, at (1,0). -/
theorem test_drw_collision : (after (exec (.drw 0 0 1) (st 0x302 0x400 [] [(0x400, 0xF0#8)] [(1, 0), (5, 0)]))).map
    (fun t => ([0, 1, 2, 3, 4, 5].map fun c => t.disp.cell c 0, t.getV 15)) =
      some ([true, false, true, true, false, true], 1#8) := by decide +kernel
/-- V-DRW-15: `VF` is reset before it is read as the origin's column. -/
theorem test_drw_flag_operand : (after (exec (.drw 15 1 1) (st 0x302 0x400 [(15, 5), (1, 1)] [(0x400, 0x80#8)] []))).map
    (fun t => (t.disp.cell 0 1, t.disp.cell 5 1, t.getV 15)) = some (true, false, 0#8) := by decide +kernel
/-- V-FET-2: the last word of memory, and `PC` past the end with no fault. -/
theorem test_step_last_word : (after (step (st 0xFFE 0 [] [(0xFFE, 0x60#8), (0xFFF, 0x01#8)] []))).map
    (fun t => (t.pc, t.getV 0, t.fault)) = some (0x1000#16, 0x01#8, none) := by decide
/-- V-FET-6: no 16-bit wrap of `PC + 1`. -/
theorem test_step_no_wrap : (after (step (st 0xFFFF 0 [] [(0, 0x60#8)] []))).map (fun t => (t.pc, t.fault)) =
    some (0xFFFF#16, some ⟨.fetchOutOfBounds, 0xFFFF#16⟩) := by decide
/-- V-FLT-1: the boot hazard. -/
theorem test_step_reset : (after (step State.reset)).map (fun t => (t.pc, t.fault)) =
    some (0x0002#16, some ⟨.unknownOpcode, 0x0000#16⟩) := by decide
/-- The harness: the placed word runs as the first instruction after reset. -/
theorem test_withFetchWord : (after (step (State.reset.withFetchWord 16 0x7F05))).map (fun t => (t.pc, t.getV 15)) =
    some (0x0002#16, 0x05#8) := by decide
/-- R152: `JP 0x200` at the reset entry point is `12 00`. -/
theorem test_bootJump : bootJump Config.loadBase = [.hostWrite 0 0x12#8, .hostWrite 1 0x00#8] := by decide
/-- A write that stores 0 removes the entry, so equal memories are equal lists. -/
theorem test_memory_canonical : (Memory.write [(1, 0x05#8), (2, 0x06#8)] 1 0x00#8) = [(2, 0x06#8)] ∧
    Memory.wf [(2, 0x06#8), (1, 0x05#8)] = false ∧ Memory.wf [(1, 0x00#8)] = false ∧ Memory.wf [(4096, 0x01#8)] = false := by
  decide

/-! ### Witnesses: states and operands that meet the hypotheses of the statements -/

/-- A word of each class decodes to an instruction. -/
theorem test_witness_EncodeDecodeInverse : decode 0x00E0#16 = .instr .cls ∧ decode 0x1FFF#16 = .instr (.jp 0xFFF) ∧
    decode 0x6F00#16 = .instr (.ldV 15 0) ∧ decode 0x7A01#16 = .instr (.addV 10 1) ∧
    decode 0xAFFF#16 = .instr (.ldI 0xFFF) ∧ decode 0xDFFF#16 = .instr (.drw 15 15 15) := by decide

theorem test_witness_AssemblerRefusesOutOfRange :
    (AsmLine.drw 15 15 15).assemble = some [0xDF#8, 0xFF#8] ∧ ∀ data, AsmLine.drw 15 15 15 ≠ .db data :=
  ⟨by decide, fun _ => by simp⟩

theorem test_witness_ClsClearsDisplay : (st 0xFFE 0 [] [(0xFFF, 0xE0#8)] [(63, 31)]).AboutToRun .cls :=
  ⟨0x00E0#16, ⟨rfl, 0x00#8, 0xE0#8, rfl, rfl, rfl⟩, by decide⟩

/-- A jump to 0xFFF, the one target whose fetch faults. -/
theorem test_witness_JpSetsPc_last : (st 0 0 [] [(0, 0x1F#8), (1, 0xFF#8)] []).AboutToRun (.jp 0xFFF) :=
  ⟨0x1FFF#16, ⟨rfl, 0x1F#8, 0xFF#8, rfl, rfl, rfl⟩, by decide⟩

/-- A jump to the last word, and a jump to itself. -/
theorem test_witness_JpSetsPc_self : (st 0xFFE 0 [] [(0xFFE, 0x1F#8), (0xFFF, 0xFE#8)] []).AboutToRun (.jp 0xFFE) ∧
    (0xFFE#12 : Addr12) ≠ 0xFFF#12 ∧ (st 0xFFE 0 [] [] []).pc.toNat = (0xFFE#12 : Addr12).toNat :=
  ⟨⟨0x1FFE#16, ⟨rfl, 0x1F#8, 0xFE#8, rfl, rfl, rfl⟩, by decide⟩, by decide, by decide⟩

/-- The draws the next witnesses use: one row at (56, 31) with pixel 0xFF over a lit corner cell (63, 31). -/
def drawState : State := st 0x302 0xFFF [(0, 56), (1, 31)] [(0xFFF, 0xFF#8)] [(63, 31)]

/-- In bounds at the edges: one row at 0xFFF, fifteen at 0xFF1, none at 0xFFFF. -/
theorem test_witness_SpriteInBounds : drawState.SpriteInBounds 1 ∧ (st 0 0xFF1 [] [] []).SpriteInBounds 15 ∧
    (st 0 0xFFFF [] [] []).SpriteInBounds 0 := by
  unfold State.SpriteInBounds
  decide

/-- A covered cell at the corner with a lit pixel over a lit cell; a cell just outside; a draw with no collision. -/
theorem test_witness_DrwClosedForm : drawState.SpriteInBounds 1 ∧
    Inside (drawState.drawLeft 0) (drawState.drawTop 1) 1 63 31 ∧
    drawState.spritePix (drawState.drawLeft 0) (drawState.drawTop 1) 63 31 = true ∧ drawState.disp.cell 63 31 = true ∧
    ¬Inside (drawState.drawLeft 0) (drawState.drawTop 1) 1 55 31 ∧
    ¬Inside (drawState.drawLeft 0) (drawState.drawTop 1) 1 63 30 := by
  unfold State.SpriteInBounds Inside
  decide +kernel

theorem test_witness_DrwClosedForm_no_collision : (st 0 0 [] [] []).SpriteInBounds 1 ∧
    ¬∃ col row, (st 0 0 [] [] []).disp.cell col row = true := by
  unfold State.SpriteInBounds
  decide +kernel

theorem test_witness_DrwFrame : ∃ t, exec (.drw 0 1 1) drawState = .next t ∧
    t.disp.cell 63 31 ≠ drawState.disp.cell 63 31 := ⟨_, rfl, by decide +kernel⟩

theorem test_witness_DrwTwiceFlagIffLitPixelOnAnyDisplay : ∃ t u, drawState.SpriteInBounds 1 ∧
    exec (.drw 0 1 1) drawState = .next t ∧ exec (.drw 0 1 1) t = .next u := by
  unfold State.SpriteInBounds
  exact ⟨_, _, by decide, rfl, rfl⟩

theorem test_witness_CompositePixelXorsOldCell : (63 : Fin 64).val < drawXLimit ∧
    (31 : Fin 32).val < drawYLimit ∧ ((62, 31) : Fin 64 × Fin 32) ≠ (63, 31) := by decide

theorem test_witness_PixelPastEdgeIsSkipped : (64 ≤ 64 ∨ 32 ≤ 31) ∧ (64 ≤ 63 ∨ 32 ≤ 32) := by decide

/-- Out of bounds at the edges: two rows at 0xFFF, fifteen at 0xFF2. -/
theorem test_witness_SpriteOutOfBoundsFaults :
    (1 ≤ (2 : Fin 16).val ∧ 0xFFF < (0xFFF#16 : Word).toNat + (2 : Fin 16).val - 1) ∧
    (1 ≤ (15 : Fin 16).val ∧ 0xFFF < (0xFF2#16 : Word).toNat + (15 : Fin 16).val - 1) ∧
    (st 0x300 0xFFF [] [(0x300, 0xD0#8), (0x301, 0x12#8)] []).AboutToRun (.drw 0 1 2) :=
  ⟨by decide, by decide, 0xD012#16, ⟨rfl, 0xD0#8, 0x12#8, rfl, rfl, rfl⟩, by decide⟩

/-- Bytes at the last legal fetch, at an odd `PC`, and the first `PC` whose fetch fails. -/
theorem test_witness_FetchAdvancesPcByTwo :
    (st 0xFFE 0 [] [(0xFFE, 0x60#8), (0xFFF, 0x01#8)] []).mem.read 0xFFE = .ok 0x60#8 ∧
    (st 0xFFE 0 [] [(0xFFE, 0x60#8), (0xFFF, 0x01#8)] []).mem.read 0xFFF = .ok 0x01#8 ∧
    (st 3 0 [] [(3, 0x6A#8), (4, 0x55#8)] []).mem.read 3 = .ok 0x6A#8 ∧
    (st 3 0 [] [(3, 0x6A#8), (4, 0x55#8)] []).mem.read 4 = .ok 0x55#8 ∧
    0xFFF ≤ (st 0xFFF 0 [] [] []).pc.toNat := ⟨rfl, rfl, rfl, rfl, by decide⟩

theorem test_witness_FetchIsBigEndian : ∃ s', fetch (st 0 0 [] [(0, 0x12#8), (1, 0x34#8)] []) = .ok (0x1234#16, s') :=
  ⟨_, rfl⟩

theorem test_witness_FetchOutOfBoundsHalts : (st 0xFFF 0 [] [] []).fault = none ∧ 0xFFF ≤ (st 0xFFF 0 [] [] []).pc.toNat := by
  decide

theorem test_witness_StepRunsDecodedInstruction : ∃ hi lo : Byte, (st 0xFFE 0 [] [(0xFFE, 0x7F#8)] []).fault = none ∧
    (st 0xFFE 0 [] [(0xFFE, 0x7F#8)] []).mem.read 0xFFE = .ok hi ∧
    (st 0xFFE 0 [] [(0xFFE, 0x7F#8)] []).mem.read 0xFFF = .ok lo ∧ decodeBytes [hi, lo] = .ok (.addV 15 0, []) :=
  ⟨0x7F#8, 0x00#8, rfl, rfl, rfl, by decide⟩

theorem test_witness_UnknownOpcodeHalts : (st 0xFFE 0 [] [(0xFFF, 0xEE#8)] []).NextWord 0x00EE#16 ∧
    decode 0x00EE#16 = .unknown 0x00EE#16 := ⟨⟨rfl, 0x00#8, 0xEE#8, rfl, rfl, rfl⟩, by decide⟩

/-- A halted core, as V-FLT-2 leaves it. -/
def haltedState : State := (st 0x302 0 [] [(0x301, 0xEE#8)] []).raise .unknownOpcode 0x00EE#16

theorem test_witness_HaltedCoreStaysAsItIs : haltedState.fault ≠ none := by decide

theorem test_witness_OnlyResetClearsFault : ∃ s' r, transact (.hostWrite 0x302 0x60) haltedState = .next (s', r) ∧
    haltedState.fault ≠ none ∧ Transaction.hostWrite 0x302 0x60 ≠ .reset := ⟨_, _, rfl, by decide, by decide⟩

/-- The three faults of one cycle. -/
theorem test_witness_FaultsArePrecise :
    (∃ t f, step (st 0 0 [] [] []) = .next t ∧ t.fault = some f ∧ f.cause = .unknownOpcode) ∧
    (∃ t f, step (st 0xFFF 0 [] [] []) = .next t ∧ t.fault = some f ∧ f.cause = .fetchOutOfBounds) ∧
    (∃ t f, step (st 0 0xFFF [] [(0, 0xD0#8), (1, 0x02#8)] []) = .next t ∧ t.fault = some f ∧
      f.cause = .spriteReadOutOfBounds) := ⟨⟨_, _, rfl, rfl, rfl⟩, ⟨_, _, rfl, rfl, rfl⟩, ⟨_, _, rfl, rfl, rfl⟩⟩

theorem test_witness_OnlyOutOfBoundsDrawFaults : ∃ t, exec (.drw 0 0 2) (st 0 0xFFF [] [] []) = .next t ∧
    t.fault ≠ (st 0 0xFFF [] [] []).fault := ⟨_, rfl, by decide⟩

theorem test_witness_OnlyDrawReadsDataMemory : (∃ x nn, Instr.ldV 15 0 = .ldV x nn) ∧
    (∀ x y n, Instr.jp 0xFFF ≠ .drw x y n) ∧ ∃ t, exec .cls (st 0 0 [] [(0, 1#8)] []) = .next t :=
  ⟨⟨_, _, rfl⟩, fun _ _ _ => by simp, _, rfl⟩

theorem test_witness_CoreNeverWritesMemory : ∃ t, runSteps 1 (st 0 0 [] [(0, 0x60#8)] []) = .next t := ⟨_, rfl⟩

/-- One step under which a register changes, `I`, a cell, and one after which `PC` is not 2 further on. -/
theorem test_witness_WritersOfEachPieceOfState :
    (∃ t, step (st 0 0 [] [(0, 0x6F#8), (1, 0x01#8)] []) = .next t ∧ t.getV 15 ≠ 0#8) ∧
    (∃ t, step (st 0 0 [] [(0, 0xA0#8), (1, 0x01#8)] []) = .next t ∧ t.i ≠ 0#16) ∧
    (∃ t, step (st 0 0 [] [(1, 0xE0#8)] [(63, 31)]) = .next t ∧ t.disp.cell 63 31 ≠ true) ∧
    (∃ t, step (st 0 0 [] [(0, 0x10#8)] []) = .next t ∧ t.pc.toNat ≠ 2) :=
  ⟨⟨_, rfl, by decide⟩, ⟨_, rfl, by decide⟩, ⟨_, rfl, by decide +kernel⟩, ⟨_, rfl, by decide⟩⟩

/-- A jump to an odd address from an odd `PC`. -/
theorem test_witness_PcParityFollowsJumps : (st 0xFFD 0 [] [(0xFFD, 0x10#8), (0xFFE, 0x03#8)] []).pc.toNat + 1 ≤ 0xFFF ∧
    (∃ t, exec (.jp 3) (st 0xFFF 0 [] [] []) = .next t) ∧
    (∃ t, runSteps 1 (st 0xFFD 0 [] [(0xFFD, 0x10#8), (0xFFE, 0x03#8)] []) = .next t) ∧
    (∀ j, j < 1 → ∀ (u : State) (nnn : Addr12),
      runSteps j (st 0xFFD 0 [] [(0xFFD, 0x10#8), (0xFFE, 0x03#8)] []) = .next u → u.AboutToRun (.jp nnn) →
      nnn.toNat % 2 = (st 0xFFD 0 [] [(0xFFD, 0x10#8), (0xFFE, 0x03#8)] []).pc.toNat % 2) := by
  refine ⟨by decide, ⟨_, rfl⟩, ⟨_, rfl⟩, ?_⟩
  intro j hj u nnn hu ⟨w, ⟨_, hi, lo, h1, h2, hw⟩, hd⟩
  obtain rfl : j = 0 := by omega
  obtain rfl : st 0xFFD 0 [] [(0xFFD, 0x10#8), (0xFFE, 0x03#8)] [] = u := by cases hu; rfl
  obtain rfl : (0x10#8 : Byte) = hi := by
    have : (Except.ok 0x10#8 : Except Fault Byte) = .ok hi := h1
    cases this; rfl
  obtain rfl : (0x03#8 : Byte) = lo := by
    have : (Except.ok 0x03#8 : Except Fault Byte) = .ok lo := h2
    cases this; rfl
  have e : decode (wordOfBytes 0x10#8 0x03#8) = .instr (.jp 3) := by decide
  rw [hw, e] at hd
  cases hd
  decide

theorem test_witness_ControlFlowIndependentOfData : ∃ t t',
    runSteps 1 (st 0 0 [] [(0, 0x70#8), (1, 1#8)] []) = .next t ∧
    runSteps 1 (st 0 5 [(0, 9)] [(0, 0x70#8), (1, 1#8)] [(3, 3)]) = .next t' ∧ t.fault = none ∧ t'.fault = none :=
  ⟨_, _, rfl, rfl, rfl, rfl⟩

theorem test_witness_RunWithoutJumpHalts : ∀ (a : Nat) (hi lo : Byte), State.reset.mem.read a = .ok hi →
    State.reset.mem.read (a + 1) = .ok lo → ∀ nnn, decode (wordOfBytes hi lo) ≠ .instr (.jp nnn) := by
  intro a hi lo h1 h2 nnn
  have e : ∀ (k : Nat) (b : Byte), State.reset.mem.read k = .ok b → b = 0#8 := by
    intro k b h
    unfold Memory.read at h
    split at h <;> cases h
    rfl
  rw [e a hi h1, e _ lo h2]
  have : decode (wordOfBytes 0#8 0#8) = .unknown 0#16 := by decide
  rw [this]
  simp

theorem test_witness_StopIdentifiesWordAndAddress :
    (∃ t w, step (st 0xFFE 0 [] [] []) = .next t ∧ t.runStatus = .stopped w) ∧
    (∃ t c, step (st 0xFFF 0 [] [] []) = .next t ∧ t.runStatus = .outOfBounds c) :=
  ⟨⟨_, _, rfl, rfl⟩, ⟨_, _, rfl, rfl⟩⟩

/-- A state at the edges of the invariant, with a step from it. -/
theorem test_witness_InvariantKeptByEveryStep : (st 0x1000 0xFFF [] [(0xFFF, 1#8)] []).Inv ∧
    ∃ t, step (st 0x1000 0xFFF [] [(0xFFF, 1#8)] []) = .next t :=
  ⟨⟨rfl, by decide, by decide, trivial⟩, _, rfl⟩

/-- `PC = 0x1000` is reached by a running core: `JP 0xFFE`, then `LD V0, 1` at 0xFFE (P7b). -/
theorem test_witness_ReachableRegistersInRange : ∃ s, Reachable s ∧ s.pc = 0x1000#16 ∧ s.fault = none := by
  have h1 := Reachable.transact (t := .hostWrite 0 0x1F#8) .reset rfl
  have h2 := Reachable.transact (t := .hostWrite 1 0xFE#8) h1 rfl
  have h3 := Reachable.transact (t := .hostWrite 0xFFE 0x60#8) h2 rfl
  have h4 := Reachable.transact (t := .step) h3 rfl
  exact ⟨_, Reachable.transact (t := .step) h4 rfl, rfl, rfl⟩

theorem test_witness_BootHazardHaltsAtOnce :
    ∀ t ∈ [Transaction.hostWrite 2 0x12#8, .hostWrite 0x200 0x60#8], ∃ a b, t = .hostWrite a b ∧ 2 ≤ a.val := by
  simp

theorem test_witness_MemoryReadIsBoundsChecked : (0xFFF ≤ 0xFFF) ∧ (0xFFF < 0x1000) := by decide

theorem test_witness_HostWriteThenHostRead : haltedState.mem.wf = true ∧ (0xFFE : Fin 4096) ≠ 0xFFF := by decide

theorem test_witness_HostWriteSeenByNextFetch : (st 0xFFE 0 [] [(0xFFF, 1#8)] []).mem.wf = true ∧
    (st 0xFFE 0 [] [(0xFFF, 1#8)] []).fault = none ∧ (0xFFE : Fin 4096).val = (st 0xFFE 0 [] [(0xFFF, 1#8)] []).pc.toNat ∧
    (0xFFF : Fin 4096).val = (st 0xFFE 0 [] [(0xFFF, 1#8)] []).pc.toNat + 1 := by decide

end Sys2Proof.Tests
end

section
/-! PROOFS. Where a cycle leaves `PC`, and its parity along a run (spec/10_state.md R34). -/

namespace Sys2Proof.Machine

/-! ### Where a cycle leaves `PC` -/

/-- The word a cycle runs lies in memory, so its fetch is in bounds. -/
theorem State.NextWord.pc_succ_le {s : State} {w : Word} (h : s.NextWord w) : s.pc.toNat + 1 ≤ 0xFFF := by
  obtain ⟨-, hpc, -⟩ := (s.nextWord_iff w).1 h
  exact hpc

/-- Everything `DRW` can do: draw the rows it read, or raise its fault and change nothing else (R110, R111). -/
theorem execDrw_cases (x y : RegIndex) (n : Fin 16) (s : State) :
    (s.SpriteInBounds n ∧ execDrw x y n s = .next (s.drawRows x y (s.mem.bytes s.i.toNat n.val))) ∨
    (¬s.SpriteInBounds n ∧ execDrw x y n s = .next (s.raise .spriteReadOutOfBounds s.i)) := by
  by_cases hb : s.SpriteInBounds n
  · exact .inl ⟨hb, execDrw_of_inBounds x y hb⟩
  · exact .inr ⟨hb, execDrw_of_not_inBounds x y hb⟩

/-- `JP` is the only instruction whose meaning writes `PC` (R23). -/
theorem exec_pc_of_ne_jp {i : Instr} {s t : State} (hi : ∀ nnn, i ≠ .jp nnn) (h : exec i s = .next t) :
    t.pc = s.pc := by
  cases i with
  | cls => cases h; rfl
  | jp nnn => exact absurd rfl (hi nnn)
  | ldV x nn => cases h; rfl
  | addV x nn => cases h; rfl
  | ldI nnn => cases h; rfl
  | drw x y n =>
    obtain ⟨-, hd⟩ | ⟨-, hd⟩ := execDrw_cases x y n s <;> cases hd.symm.trans h
    · exact s.drawRows_pc x y _
    · exact s.raise_pc _ _

/-- Everything a cycle can do to `PC`: nothing (a halted core, a fetch fault), the advance of a fetch in bounds, or the
jump to the target of the `JP` it runs (R23, R34). -/
theorem step_pc_cases {s t : State} (h : step s = .next t) :
    t.pc = s.pc ∨ (s.pc.toNat + 1 ≤ 0xFFF ∧ t.pc = s.pc + 2#16) ∨
    ∃ nnn, s.AboutToRun (.jp nnn) ∧ t.pc = zext16 nnn := by
  obtain ⟨-, he⟩ | ⟨-, -, he⟩ | ⟨w, hw, -, he⟩ | ⟨w, i, hw, hd, he⟩ := step_cases s <;> rw [he] at h
  · cases h; exact .inl rfl
  · cases h; exact .inl rfl
  · cases h; exact .inr (.inl ⟨hw.pc_succ_le, rfl⟩)
  · by_cases hj : ∃ nnn, i = .jp nnn
    · obtain ⟨nnn, rfl⟩ := hj
      cases h; exact .inr (.inr ⟨nnn, ⟨w, hw, hd⟩, rfl⟩)
    · exact .inr (.inl ⟨hw.pc_succ_le, exec_pc_of_ne_jp (fun nnn hi => hj ⟨nnn, hi⟩) h⟩)

/-! ### The parity of `PC` -/

/-- The advance of a fetch in bounds keeps the parity: `PC + 2` does not wrap there (R34). -/
theorem toNat_pc_add_two_mod_two {s : State} (h : s.pc.toNat + 1 ≤ 0xFFF) :
    (s.pc + 2#16).toNat % 2 = s.pc.toNat % 2 := by
  rw [toNat_pc_add_two s h, Nat.add_mod_right]

/-- A cycle keeps the parity of `PC`, unless it jumps to a target of the other one (R34). -/
theorem step_keeps_pc_parity {s t : State} {p : Nat} (hs : s.pc.toNat % 2 = p)
    (hjp : ∀ nnn, s.AboutToRun (.jp nnn) → nnn.toNat % 2 = p) (h : step s = .next t) : t.pc.toNat % 2 = p := by
  obtain hpc | ⟨hle, hpc⟩ | ⟨nnn, hrun, hpc⟩ := step_pc_cases h <;> rw [hpc]
  · exact hs
  · rw [toNat_pc_add_two_mod_two hle, hs]
  · rw [toNat_zext16, hjp nnn hrun]

/-! ### Along a run -/

/-- A run of `k + 1` cycles that ends in a state is a first cycle and a run of `k` from its result. -/
theorem runSteps_succ_eq_next {k : Nat} {s t : State} (h : runSteps (k + 1) s = .next t) :
    ∃ u, step s = .next u ∧ runSteps k u = .next t := by
  cases hu : step s with
  | next u => exact ⟨u, rfl, by rwa [runSteps_succ_of_next hu] at h⟩
  | fault r => simp [runSteps, hu] at h
  | refused r => simp [runSteps, hu] at h

/-- What holds at the start of a run and is kept by each of its cycles holds at its end. -/
theorem runSteps_invariant {P : State → Prop} {k : Nat} {s t : State} (hs : P s)
    (hstep : ∀ j, j < k → ∀ u v, runSteps j s = .next u → P u → step u = .next v → P v)
    (h : runSteps k s = .next t) : P t := by
  induction k generalizing s with
  | zero => cases h; exact hs
  | succ k ih =>
    obtain ⟨s', hs', hrun⟩ := runSteps_succ_eq_next h
    refine ih (hstep 0 k.succ_pos s s' rfl hs hs') (fun j hj u v hu => ?_) hrun
    exact hstep (j + 1) (Nat.succ_lt_succ hj) u v (by rwa [runSteps_succ_of_next hs'])

/-- Settles O36: each cycle keeps the parity unless it jumps to a target of the other one, so a run without such a jump
keeps it. -/
theorem pcParityFollowsJumps : Obligations.PcParityFollowsJumps := by
  refine ⟨rfl, fun s hpc => ?_, fun nnn s t h => ?_, fun k s t hjp h => ?_⟩
  · exact ⟨_, _, fetch_of_le s hpc, toNat_pc_add_two_mod_two hpc⟩
  · cases h
    rw [State.setPc_pc, toNat_zext16]
  · refine runSteps_invariant (P := fun u => u.pc.toNat % 2 = s.pc.toNat % 2) rfl (fun j hj u v hu hpar huv => ?_) h
    exact step_keeps_pc_parity hpar (fun nnn => hjp j hj u nnn hu) huv

end Sys2Proof.Machine

end

section
/-! PROOFS. The byte order of instruction fetch (spec/20_memory.md R43). -/

namespace Sys2Proof.Machine

/-- Where fetch answers, `PC + 1` is in memory, the word is the one that stands at `PC`, and the state is `s` with `PC`
advanced (R81). -/
theorem fetch_eq_ok_iff (s s' : State) (w : Word) :
    fetch s = .ok (w, s') ↔ s.pc.toNat + 1 ≤ 0xFFF ∧
      w = wordOfBytes (s.mem.lookup s.pc.toNat) (s.mem.lookup (s.pc.toNat + 1)) ∧ s' = s.setPc (s.pc + 2#16) := by
  obtain ⟨hle, he⟩ | ⟨hgt, e, he⟩ := fetch_cases s <;> rw [he]
  · simp [hle, eq_comm]
  · simp [Nat.not_le.2 hgt]

/-- Settles O23: fetch composes the bytes it read at `PC` and `PC + 1`, and taking the word apart gives them back. -/
theorem fetchIsBigEndian : Obligations.FetchIsBigEndian := by
  intro s s' w h
  obtain ⟨hle, rfl, -⟩ := (fetch_eq_ok_iff s s' w).1 h
  rw [← wordHi, ← wordLo, wordHi_wordOfBytes, wordLo_wordOfBytes]
  exact ⟨s.mem.read_of_le (Nat.le_of_succ_le hle), s.mem.read_of_le hle⟩

end Sys2Proof.Machine

end

section
/-! PROOFS. Decoding and encoding are inverse, on words and on bytes (spec/30_encoding.md sections 3 and 8). -/

namespace Sys2Proof

/-! ### The fields of a format are its operands (R61, R62) -/

@[simp] theorem fieldClass_formatA (c : BitVec 4) (nnn : Addr12) : fieldClass (formatA c nnn) = c := by
  rw [fieldClass_eq_iff, toNat_formatA]
  omega

@[simp] theorem fieldNNN_formatA (c : BitVec 4) (nnn : Addr12) : fieldNNN (formatA c nnn) = nnn := by
  apply BitVec.eq_of_toNat_eq
  rw [toNat_fieldNNN, toNat_formatA]
  omega

@[simp] theorem fieldClass_formatXI (c : BitVec 4) (x : RegIndex) (nn : Byte) : fieldClass (formatXI c x nn) = c := by
  rw [fieldClass_eq_iff, toNat_formatXI]
  omega

@[simp] theorem fieldX_formatXI (c : BitVec 4) (x : RegIndex) (nn : Byte) : fieldX (formatXI c x nn) = x := by
  apply Fin.ext
  rw [val_fieldX, toNat_formatXI]
  omega

@[simp] theorem fieldNN_formatXI (c : BitVec 4) (x : RegIndex) (nn : Byte) : fieldNN (formatXI c x nn) = nn := by
  apply BitVec.eq_of_toNat_eq
  rw [toNat_fieldNN, toNat_formatXI]
  omega

@[simp] theorem fieldClass_formatXYN (c : BitVec 4) (x y : RegIndex) (n : Fin 16) :
    fieldClass (formatXYN c x y n) = c := by
  rw [fieldClass_eq_iff, toNat_formatXYN]
  omega

@[simp] theorem fieldX_formatXYN (c : BitVec 4) (x y : RegIndex) (n : Fin 16) : fieldX (formatXYN c x y n) = x := by
  apply Fin.ext
  rw [val_fieldX, toNat_formatXYN]
  omega

@[simp] theorem fieldY_formatXYN (c : BitVec 4) (x y : RegIndex) (n : Fin 16) : fieldY (formatXYN c x y n) = y := by
  apply Fin.ext
  rw [val_fieldY, toNat_formatXYN]
  omega

@[simp] theorem fieldN_formatXYN (c : BitVec 4) (x y : RegIndex) (n : Fin 16) : fieldN (formatXYN c x y n) = n := by
  apply Fin.ext
  rw [val_fieldN, toNat_formatXYN]
  omega

/-! ### A word is the format of its class and its own fields (R61, R62) -/

theorem formatA_fields {w : Word} {c : BitVec 4} (h : w.toNat / 4096 = c.toNat) : formatA c (fieldNNN w) = w := by
  apply BitVec.eq_of_toNat_eq
  rw [toNat_formatA, ← h, toNat_fieldNNN]
  omega

theorem formatXI_fields {w : Word} {c : BitVec 4} (h : w.toNat / 4096 = c.toNat) :
    formatXI c (fieldX w) (fieldNN w) = w := by
  apply BitVec.eq_of_toNat_eq
  rw [toNat_formatXI, ← h, val_fieldX, toNat_fieldNN]
  omega

theorem formatXYN_fields {w : Word} {c : BitVec 4} (h : w.toNat / 4096 = c.toNat) :
    formatXYN c (fieldX w) (fieldY w) (fieldN w) = w := by
  apply BitVec.eq_of_toNat_eq
  rw [toNat_formatXYN, ← h, val_fieldX, val_fieldY, val_fieldN]
  omega

/-! ### Decoding an encoded instruction -/

/-- A word whose class is not 0x0 is not the word of `CLS`, so its class alone decides (R64). -/
theorem ne_clsWord_of_fieldClass {w : Word} (h : fieldClass w ≠ 0#4) : w ≠ 0x00E0#16 := by
  rintro rfl
  exact h rfl

/-- Decoding reads the instruction off its own word: only `CLS` is compared as a full word; of every other
instruction the class selects the row, and the fields are the operands (R64). -/
@[simp] theorem decode_encode (i : Instr) : decode (encode i) = .instr i := by
  cases i with
  | cls => rfl
  | jp | ldV | addV | ldI | drw => simp [encode, decode, ne_clsWord_of_fieldClass]

/-! ### Encoding a decoded word -/

/-- A known word is the word of the instruction it decodes to: in each row, the format of its own fields. -/
theorem encode_of_decode {w : Word} {i : Instr} (h : decode w = .instr i) : encode i = w := by
  obtain ⟨hw, hd⟩ | ⟨hc, hd⟩ | ⟨hc, hd⟩ | ⟨hc, hd⟩ | ⟨hc, hd⟩ | ⟨hc, hd⟩ | ⟨-, -, hd⟩ := decode_cases w <;>
    cases hd.symm.trans h
  · exact (BitVec.eq_of_toNat_eq hw).symm
  · exact formatA_fields hc
  · exact formatXI_fields hc
  · exact formatXI_fields hc
  · exact formatA_fields hc
  · exact formatXYN_fields hc

/-! ### Bytes -/

/-- A known word at the front of the bytes is taken off them, high byte first (R60). -/
theorem decodeBytes_of_decode {hi lo : Byte} {i : Instr} (h : decode (wordOfBytes hi lo) = .instr i) (rest : List Byte) :
    decodeBytes (hi :: lo :: rest) = .ok (i, rest) := by
  rw [decodeBytes, h]

@[simp] theorem decodeBytes_encodeBytes (i : Instr) (rest : List Byte) :
    decodeBytes (encodeBytes i ++ rest) = .ok (i, rest) :=
  decodeBytes_of_decode (by rw [wordOfBytes_wordHi_wordLo, decode_encode]) rest

/-- Settles O1: the fields of a format are its operands, and a word is the format of its own fields. -/
theorem encodeDecodeInverse : Obligations.EncodeDecodeInverse :=
  ⟨decode_encode, fun _ _ => encode_of_decode, decodeBytes_encodeBytes⟩

end Sys2Proof

end

section
/-! PROOFS. A step runs the instruction its two bytes decode to (spec/40_cycle_fetch_dispatch.md R83). -/

namespace Sys2Proof

/-- The instruction decoded from the front of the bytes is the one their first word decodes to (R60, R66). -/
theorem decode_of_decodeBytes {hi lo : Byte} {i : Instr} {rest rest' : List Byte}
    (h : decodeBytes (hi :: lo :: rest) = .ok (i, rest')) : decode (wordOfBytes hi lo) = .instr i := by
  rw [decodeBytes] at h
  cases hd : decode (wordOfBytes hi lo) with
  | instr j => rw [hd] at h; cases h; rfl
  | unknown w => rw [hd] at h; cases h

end Sys2Proof

namespace Sys2Proof.Machine

/-- A step on a state about to run an instruction is that instruction's handler, on the state fetch left (R80, R83). -/
theorem State.AboutToRun.step_eq {s : State} {i : Instr} (h : s.AboutToRun i) :
    step s = exec i (s.setPc (s.pc + 2#16)) := by
  obtain ⟨w, hw, hd⟩ := h
  rw [hw.step_eq, hd, dispatch]

/-- Settles O26: the two bytes make the word the cycle runs next, so the step is the handler of what they decode to;
dispatch is its two cases. -/
theorem stepRunsDecodedInstruction : Obligations.StepRunsDecodedInstruction := by
  refine ⟨fun s hi lo i hf hhi hlo hdec => ?_, fun _ _ => rfl, fun _ _ => rfl⟩
  have hrun : s.AboutToRun i := ⟨wordOfBytes hi lo, ⟨hf, hi, lo, hhi, hlo, rfl⟩, decode_of_decodeBytes hdec⟩
  exact hrun.step_eq

end Sys2Proof.Machine

end

section
/-! PROOFS. `CLS` and `JP`: their words, their meanings, and the cycles that run them (spec/41_clear_and_jump.md R90,
R91). -/

namespace Sys2Proof

/-! ### The words of an instruction -/

/-- An instruction has one word: the one it encodes to (R64, R71). -/
theorem decode_eq_instr_iff {w : Word} {i : Instr} : decode w = .instr i ↔ w = encode i := by
  constructor
  · exact fun h => (encode_of_decode h).symm
  · rintro rfl
    exact decode_encode i

theorem toNat_encode_jp (nnn : Addr12) : (encode (.jp nnn)).toNat = 0x1000 + nnn.toNat :=
  toNat_formatA 0x1#4 nnn

end Sys2Proof

namespace Sys2Proof.Machine

/-! ### Writes to `PC` -/

@[simp] theorem State.setPc_setPc (s : State) (a b : Word) : (s.setPc a).setPc b = s.setPc b := rfl

@[simp] theorem State.setPc_self (s : State) : s.setPc s.pc = s := rfl

/-! ### The next fetch -/

theorem State.AboutToRun.fault_eq_none {s : State} {i : Instr} (h : s.AboutToRun i) : s.fault = none := by
  obtain ⟨w, ⟨hf, -⟩, -⟩ := h
  exact hf

theorem State.AboutToRun.pc_succ_le {s : State} {i : Instr} (h : s.AboutToRun i) : s.pc.toNat + 1 ≤ 0xFFF := by
  obtain ⟨w, hw, -⟩ := h
  exact hw.pc_succ_le

/-- A running core whose next fetch is in bounds has a next word (R81). -/
theorem State.exists_nextWord {s : State} (hf : s.fault = none) (hpc : s.pc.toNat + 1 ≤ 0xFFF) :
    ∃ w, s.NextWord w :=
  ⟨_, (s.nextWord_iff _).2 ⟨hf, hpc, rfl⟩⟩

/-- The cycle of a running core whose next fetch is out of bounds raises the fetch fault (R131). -/
theorem step_of_fetch_gt {s : State} (hf : s.fault = none) (hpc : 0xFFF < s.pc.toNat + 1) :
    step s = .next (s.raise .fetchOutOfBounds s.pc) := by
  have no_word (w : Word) (hw : s.NextWord w) : False := Nat.not_le.2 hpc hw.pc_succ_le
  obtain ⟨hne, -⟩ | ⟨-, -, he⟩ | ⟨w, hw, -⟩ | ⟨w, i, hw, -⟩ := step_cases s
  · exact absurd hf hne
  · exact he
  · exact (no_word w hw).elim
  · exact (no_word w hw).elim

/-! ### `CLS` -/

theorem exec_cls (s : State) : exec .cls s = .next (s.setDisp Display.clear) := rfl

/-- A cycle that runs `CLS` clears the display and advances `PC` by 2 (R90). -/
theorem State.AboutToRun.step_cls {s : State} (h : s.AboutToRun .cls) :
    step s = .next ((s.setPc (s.pc + 2#16)).setDisp Display.clear) :=
  h.step_eq

/-- Settles O8: `CLS` replaces the display by the cleared one and touches no other field; clearing the cleared display
gives it back. -/
theorem clsClearsDisplay : Obligations.ClsClearsDisplay := by
  refine ⟨fun w => decode_eq_instr_iff, fun s => ⟨_, exec_cls s, Display.cell_clear, ?_⟩,
    fun s hrun => ⟨_, hrun.step_cls, Display.cell_clear, ?_⟩⟩
  · exact ⟨fun _ => rfl, rfl, rfl, fun _ => rfl, rfl, rfl⟩
  · exact ⟨toNat_pc_add_two s hrun.pc_succ_le, fun _ => rfl, rfl, fun _ => rfl, hrun.fault_eq_none⟩

/-! ### `JP` -/

theorem exec_jp (nnn : Addr12) (s : State) : exec (.jp nnn) s = .next (s.setPc (zext16 nnn)) := rfl

/-- A cycle that runs `JP` leaves the target in `PC`: the advance of its own fetch is overwritten (R91). -/
theorem State.AboutToRun.step_jp {s : State} {nnn : Addr12} (h : s.AboutToRun (.jp nnn)) :
    step s = .next (s.setPc (zext16 nnn)) :=
  h.step_eq

/-- A 12-bit address is followed by another byte of memory unless it is the last one (R41). -/
theorem toNat_succ_le_of_ne_last {nnn : Addr12} (h : nnn ≠ 0xFFF#12) : nnn.toNat + 1 ≤ 0xFFF := by
  have hne : nnn.toNat ≠ 0xFFF := fun e => h (BitVec.eq_of_toNat_eq e)
  have hlt := nnn.isLt
  omega

/-- A jump to the address `PC` already holds leaves the state as it was (R91). -/
theorem State.setPc_zext16_of_toNat_eq {s : State} {nnn : Addr12} (h : s.pc.toNat = nnn.toNat) :
    s.setPc (zext16 nnn) = s := by
  have hpc : zext16 nnn = s.pc := BitVec.eq_of_toNat_eq ((toNat_zext16 nnn).trans h.symm)
  rw [hpc, State.setPc_self]

/-- Settles O9: `JP` overwrites `PC` with its target and touches no other field, so the next fetch is at the target,
whose second byte is outside memory for 0xFFF alone. -/
theorem jpSetsPc : Obligations.JpSetsPc := by
  refine ⟨fun w nnn => ?_, fun nnn s => ⟨_, exec_jp nnn s, toNat_zext16 nnn, ?_⟩,
    fun s nnn hrun => ⟨_, hrun.step_jp, toNat_zext16 nnn, fun _ => rfl, rfl, fun _ => rfl, fun _ _ => rfl, ?_⟩⟩
  · rw [decode_eq_instr_iff, ← BitVec.toNat_inj, toNat_encode_jp]
  · exact ⟨fun _ => rfl, rfl, fun _ => rfl, fun _ _ => rfl, rfl⟩
  · have hf : (s.setPc (zext16 nnn)).fault = none := hrun.fault_eq_none
    have hpc : (s.setPc (zext16 nnn)).pc.toNat = nnn.toNat := toNat_zext16 nnn
    refine ⟨hf, ?_, fun hne => ?_, State.setPc_zext16_of_toNat_eq⟩
    · rintro rfl
      exact ⟨_, step_of_fetch_gt hf (by rw [hpc]; decide), rfl⟩
    · exact State.exists_nextWord hf (by rw [hpc]; exact toNat_succ_le_of_ne_last hne)

end Sys2Proof.Machine

end

section
/-! PROOFS. The immediates: the words and the meanings of `LD Vx, nn` and `LD I, nnn`, and who reads or writes memory
(spec/42_register_immediate.md R100 to R104). -/

namespace Sys2Proof

theorem toNat_encode_ldV (x : RegIndex) (nn : Byte) :
    (encode (.ldV x nn)).toNat = 0x6000 + 256 * x.val + nn.toNat :=
  toNat_formatXI 0x6#4 x nn

theorem toNat_encode_ldI (nnn : Addr12) : (encode (.ldI nnn)).toNat = 0xA000 + nnn.toNat :=
  toNat_formatA 0xA#4 nnn

end Sys2Proof

namespace Sys2Proof.Machine

/-! ### The meanings of the immediates -/

theorem exec_ldV (x : RegIndex) (nn : Byte) (s : State) : exec (.ldV x nn) s = .next (s.setV x nn) := rfl

theorem exec_addV (x : RegIndex) (nn : Byte) (s : State) :
    exec (.addV x nn) s = .next (s.setV x (addWrap (s.getV x) nn)) := rfl

theorem exec_ldI (nnn : Addr12) (s : State) : exec (.ldI nnn) s = .next (s.setI (zext16 nnn)) := rfl

/-- Settles O10: `LD Vx` is one register write, which the named register reads back and no other register or field
sees. -/
theorem ldVSetsRegister : Obligations.LdVSetsRegister := by
  refine ⟨fun w x nn => ?_, fun x nn s =>
    ⟨_, exec_ldV x nn s, s.getV_setV_self x nn, fun r hr => s.getV_setV_ne nn hr, ?_⟩⟩
  · rw [decode_eq_instr_iff, ← BitVec.toNat_inj, toNat_encode_ldV]
  · exact ⟨rfl, rfl, fun _ => rfl, fun _ _ => rfl, rfl⟩

/-- Settles O12: `LD I` is one write of the zero-extended address to `I`, which no other field sees. -/
theorem ldISetsIndex : Obligations.LdISetsIndex := by
  refine ⟨fun w nnn => ?_, fun nnn s => ⟨_, exec_ldI nnn s, toNat_zext16 nnn, ?_⟩⟩
  · rw [decode_eq_instr_iff, ← BitVec.toNat_inj, toNat_encode_ldI]
  · exact ⟨fun _ => rfl, rfl, fun _ => rfl, fun _ _ => rfl, rfl⟩

/-! ### Who reads and who writes memory -/

/-- No instruction stores to memory: a draw, too, leaves it, whether it completes or faults (R42, R104). -/
theorem exec_mem {i : Instr} {s t : State} (h : exec i s = .next t) : t.mem = s.mem := by
  cases i with
  | cls => cases h; rfl
  | jp nnn => cases h; rfl
  | ldV x nn => cases h; rfl
  | addV x nn => cases h; rfl
  | ldI nnn => cases h; rfl
  | drw x y n =>
    obtain ⟨-, hd⟩ | ⟨-, hd⟩ := execDrw_cases x y n s <;> cases hd.symm.trans h
    · exact s.drawRows_mem x y _
    · exact s.raise_mem _ _

/-- No instruction but `DRW` reads data memory: over any other memory it does the same, and carries that memory along
(R104). -/
theorem exec_setMem_of_ne_drw {i : Instr} (hi : ∀ x y n, i ≠ .drw x y n) (s : State) (m : Memory) :
    ∃ t, exec i s = .next t ∧ exec i (s.setMem m) = .next (t.setMem m) := by
  cases i with
  | cls => exact ⟨_, exec_cls s, rfl⟩
  | jp nnn => exact ⟨_, exec_jp nnn s, rfl⟩
  | ldV x nn => exact ⟨_, exec_ldV x nn s, rfl⟩
  | addV x nn => exact ⟨_, exec_addV x nn s, rfl⟩
  | ldI nnn => exact ⟨_, exec_ldI nnn s, rfl⟩
  | drw x y n => exact absurd rfl (hi x y n)

/-- Settles O33: each immediate is a register or index write, whose value comes from no memory and no display; of the
other instructions `DRW` alone reads memory, and none stores to it. -/
theorem onlyDrawReadsDataMemory : Obligations.OnlyDrawReadsDataMemory := by
  refine ⟨?_, fun i => exec_setMem_of_ne_drw, fun i s t => exec_mem⟩
  rintro i (⟨x, nn, rfl⟩ | ⟨x, nn, rfl⟩ | ⟨nnn, rfl⟩) s
  · exact ⟨_, exec_ldV x nn s, rfl, rfl, rfl, fun _ _ => rfl⟩
  · exact ⟨_, exec_addV x nn s, rfl, rfl, rfl, fun _ _ => rfl⟩
  · exact ⟨_, exec_ldI nnn s, rfl, rfl, rfl, fun _ _ => rfl⟩

end Sys2Proof.Machine

end

section
/-! PROOFS. One pixel and one byte of the compositor, read off the masks they draw (spec/43_draw_sprite.md R116). -/

namespace Sys2Proof.Machine

/-- Drawing a mask without pixels changes nothing: no cell, no record of a collision. -/
theorem Canvas.Draws.eq_of_mask_eq_false {c c' : Canvas} {mask : Fin 64 → Fin 32 → Bool} (h : c.Draws c' mask)
    (unlit : ∀ col row, mask col row = false) : c' = c := by
  obtain ⟨hcell, hhit⟩ := h
  refine Canvas.ext (Display.ext_cell fun col row => ?_) (Bool.eq_iff_iff.2 ?_)
  · rw [hcell, unlit, Bool.xor_false]
  · simpa [unlit] using hhit

@[simp] theorem pixelMask_self (col : Fin 64) (row : Fin 32) (p : Bool) : pixelMask col.val row.val p col row = p := by
  simp [pixelMask]

theorem pixelMask_of_ne {col col' : Fin 64} {row row' : Fin 32} (h : (col', row') ≠ (col, row)) (p : Bool) :
    pixelMask col.val row.val p col' row' = false := by
  have hne : ¬(col'.val = col.val ∧ row'.val = row.val) := fun e => h (Prod.ext (Fin.ext e.1) (Fin.ext e.2))
  simp [pixelMask, hne]

@[simp] theorem pixelMask_unlit (sx sy : Nat) (col : Fin 64) (row : Fin 32) : pixelMask sx sy false col row = false :=
  Bool.and_false _

/-- A pixel on the display meets a lit cell iff it is lit and its own cell is. -/
theorem exists_pixelMask_lit_iff (col : Fin 64) (row : Fin 32) (p : Bool) (d : Display) :
    (∃ col' row', pixelMask col.val row.val p col' row' = true ∧ d.cell col' row' = true) ↔
      p = true ∧ d.cell col row = true := by
  constructor
  · rintro ⟨col', row', hp, hd⟩
    by_cases e : (col', row') = (col, row)
    · cases e
      exact ⟨(pixelMask_self col row p).symm.trans hp, hd⟩
    · exact absurd ((pixelMask_of_ne e p).symm.trans hp) Bool.false_ne_true
  · exact fun h => ⟨col, row, (pixelMask_self col row p).trans h.1, h.2⟩

@[simp] theorem spritePixel_zero (k : Nat) : spritePixel 0x00#8 k = false := BitVec.getLsbD_zero

@[simp] theorem colsMask_zero (left sy k : Nat) (col : Fin 64) (row : Fin 32) :
    colsMask 0x00#8 left sy k col row = false := by
  rw [colsMask, spritePixel_zero, Bool.and_false]

/-- Settles O20: a pixel draws the mask of its own cell, and a pixel or a byte of value 0 draws a mask without pixels.
The limits are not needed as premises: every cell of the display is below them. -/
theorem compositePixelXorsOldCell : Obligations.CompositePixelXorsOldCell := by
  refine ⟨fun col row p c _ _ => ?_, fun sx sy c => ?_, fun left sy c => ?_⟩
  · obtain ⟨hcell, hhit⟩ := compositePixel_draws col.val row.val p c
    refine ⟨?_, ?_, fun col' row' hne => ?_⟩
    · rw [hcell, pixelMask_self]
    · rw [hhit, exists_pixelMask_lit_iff]
    · rw [hcell, pixelMask_of_ne hne, Bool.xor_false]
  · exact (compositePixel_draws sx sy false c).eq_of_mask_eq_false (pixelMask_unlit sx sy)
  · exact (compositeCols_draws 0x00#8 left sy 8 c).eq_of_mask_eq_false (colsMask_zero left sy 8)

end Sys2Proof.Machine

end

section
/-! PROOFS. An unknown opcode is fatal, and a halted core stays halted (spec/60_exceptions.md R133, R136). -/

namespace Sys2Proof.Machine

/-! ### A halted core -/

/-- The cycle of a halted core does nothing (R85). -/
theorem step_of_halted {s : State} (hf : s.fault ≠ none) : step s = .next s := by
  rw [step, cycle, if_pos (s.isHalted_iff.2 hf)]

/-- No number of cycles moves a halted core (R85, R136). -/
theorem runSteps_of_halted {s : State} (hf : s.fault ≠ none) (k : Nat) : runSteps k s = .next s := by
  induction k with
  | zero => rfl
  | succ k ih => rw [runSteps_succ_of_next (step_of_halted hf), ih]

/-! ### An unknown word -/

/-- A cycle that fetches an unknown word raises cause 1 with it, on the state fetch left (R133). -/
theorem State.NextWord.step_unknown {s : State} {w : Word} (h : s.NextWord w) (hd : decode w = .unknown w) :
    step s = .next ((s.setPc (s.pc + 2#16)).raise .unknownOpcode w) := by
  rw [h.step_eq, hd, dispatch]

/-- Settles O27: the cycle fetches and raises, which touches `PC` and the latch alone, and the core it leaves is halted. -/
theorem unknownOpcodeHalts : Obligations.UnknownOpcodeHalts := by
  intro s w hw hd
  refine ⟨_, hw.step_unknown hd, rfl, rfl, toNat_pc_add_two s hw.pc_succ_le, rfl, rfl, rfl, rfl, fun k u hrun => ?_⟩
  have halted : ((s.setPc (s.pc + 2#16)).raise .unknownOpcode w).fault ≠ none := Option.some_ne_none _
  rw [runSteps_of_halted halted k] at hrun
  cases hrun
  rfl

end Sys2Proof.Machine

end

section
/-! PROOFS. The state after reset (spec/70_reset_and_hazards.md R150). -/

namespace Sys2Proof.Machine

/-- The memory after reset lists no byte, so every read in bounds answers what an unlisted address holds (R31, R41). -/
theorem State.reset_mem_read {a : Nat} (h : a ≤ 0xFFF) : State.reset.mem.read a = .ok 0#8 :=
  (Memory.read_eq_ok_iff _ a _).2 ⟨h, rfl⟩

/-- Settles O40, piece by piece: the reset lemma of each field, read through the field's own accessor. -/
theorem resetStateIsZero : Obligations.ResetStateIsZero :=
  ⟨State.reset_getV, State.reset_pc, State.reset_i, fun _ => State.reset_mem_read, Display.cell_clear,
    State.reset_fault⟩

end Sys2Proof.Machine

end

section
/-! PROOFS. What one instruction can do to each piece of state, and with it every cycle: precise faults, the writers of
each piece, and totality (spec/10_state.md sections 2 to 6, spec/60_exceptions.md). -/

namespace Sys2Proof.Machine

/-! ### One instruction -/

/-- A sprite is out of bounds iff it has a row and its last row lies past the last address (R111, R119). -/
theorem State.not_spriteInBounds_iff (s : State) (n : Fin 16) :
    ¬s.SpriteInBounds n ↔ 1 ≤ n.val ∧ 0xFFF < s.i.toNat + n.val - 1 := by
  unfold State.SpriteInBounds
  omega

/-- Every instruction answers a next state, a draw out of bounds too (R134, R163). -/
theorem exists_exec_eq_next (i : Instr) (s : State) : ∃ t, exec i s = .next t := by
  cases i with
  | cls | jp | ldV | addV | ldI => exact ⟨_, rfl⟩
  | drw x y n => obtain ⟨-, hd⟩ | ⟨-, hd⟩ := execDrw_cases x y n s <;> exact ⟨_, hd⟩

/-- An instruction leaves the latch, or it is a draw out of bounds, which writes the latch and nothing else (R132,
R135). -/
theorem exec_fault_cases {i : Instr} {s t : State} (h : exec i s = .next t) :
    t.fault = s.fault ∨
    ∃ x y n, i = .drw x y n ∧ ¬s.SpriteInBounds n ∧ t = s.raise .spriteReadOutOfBounds s.i := by
  cases i with
  | cls | jp | ldV | addV | ldI => cases h; exact .inl rfl
  | drw x y n =>
    obtain ⟨-, hd⟩ | ⟨hb, hd⟩ := execDrw_cases x y n s <;> cases hd.symm.trans h
    · exact .inl (s.drawRows_fault x y _)
    · exact .inr ⟨x, y, n, rfl, hb, rfl⟩

/-- `LD I` is the only instruction that writes `I` (R24). -/
theorem exec_i_cases {i : Instr} {s t : State} (h : exec i s = .next t) :
    t.i = s.i ∨ ∃ nnn, i = .ldI nnn ∧ t.i = zext16 nnn := by
  cases i with
  | cls | jp | ldV | addV => cases h; exact .inl rfl
  | ldI nnn => cases h; exact .inr ⟨nnn, rfl, rfl⟩
  | drw x y n =>
    obtain ⟨-, hd⟩ | ⟨-, hd⟩ := execDrw_cases x y n s <;> cases hd.symm.trans h
    · exact .inl (s.drawRows_i x y _)
    · exact .inl rfl

/-- The writers of a register: `LD` and `ADD` of it, and of `VF` alone a draw (R21, R22). -/
theorem exec_writers_of_getV {i : Instr} {s t : State} {r : RegIndex} (h : exec i s = .next t)
    (hr : t.getV r ≠ s.getV r) :
    (∃ nn, i = .ldV r nn) ∨ (∃ nn, i = .addV r nn) ∨ (r = 15 ∧ ∃ x y n, i = .drw x y n) := by
  cases i with
  | cls | jp | ldI => cases h; exact absurd rfl hr
  | ldV x nn =>
    cases h
    obtain rfl : r = x := Decidable.not_not.1 fun hne => hr (s.getV_setV_ne nn hne)
    exact .inl ⟨nn, rfl⟩
  | addV x nn =>
    cases h
    obtain rfl : r = x := Decidable.not_not.1 fun hne => hr (s.getV_setV_ne _ hne)
    exact .inr (.inl ⟨nn, rfl⟩)
  | drw x y n =>
    obtain ⟨-, hd⟩ | ⟨-, hd⟩ := execDrw_cases x y n s <;> cases hd.symm.trans h
    · obtain rfl : r = 15 := Decidable.not_not.1 fun hne => hr (s.drawRows_getV_ne x y _ hne)
      exact .inr (.inr ⟨rfl, x, y, n, rfl⟩)
    · exact absurd rfl hr

/-- The writers of the display: `CLS` and `DRW` (R26). -/
theorem exec_writers_of_disp {i : Instr} {s t : State} (h : exec i s = .next t) (hd : t.disp ≠ s.disp) :
    i = .cls ∨ ∃ x y n, i = .drw x y n := by
  cases i with
  | cls => exact .inl rfl
  | jp | ldV | addV | ldI => cases h; exact absurd rfl hd
  | drw x y n => exact .inr ⟨x, y, n, rfl⟩

/-- Settles O32: an instruction that does not leave the latch is a draw whose sprite is out of bounds. -/
theorem onlyOutOfBoundsDrawFaults : Obligations.OnlyOutOfBoundsDrawFaults := by
  intro i s t h hne
  obtain hf | ⟨x, y, n, hi, hb, -⟩ := exec_fault_cases h
  · exact absurd hf hne
  · exact ⟨x, y, n, hi, (s.not_spriteInBounds_iff n).1 hb⟩

/-! ### One cycle -/

/-- Settles O31: each of the four things a cycle can do has a next state. -/
theorem everyStateHasASuccessor : Obligations.EveryStateHasASuccessor := by
  intro s
  obtain ⟨-, he⟩ | ⟨-, -, he⟩ | ⟨w, -, -, he⟩ | ⟨w, i, -, -, he⟩ := step_cases s
  · exact ⟨s, he⟩
  · exact ⟨_, he⟩
  · exact ⟨_, he⟩
  · rw [he]; exact exists_exec_eq_next i _

/-- Everything the state after a cycle can be: the same, of a halted core; the fetch fault; the unknown opcode; or what
the instruction made of the state fetch left (R80). -/
theorem step_eq_next_cases {s t : State} (h : step s = .next t) :
    (s.fault ≠ none ∧ t = s) ∨
    (s.fault = none ∧ 0xFFF ≤ s.pc.toNat ∧ t = s.raise .fetchOutOfBounds s.pc) ∨
    (∃ w, s.NextWord w ∧ decode w = .unknown w ∧ t = (s.setPc (s.pc + 2#16)).raise .unknownOpcode w) ∨
    (∃ i, s.AboutToRun i ∧ exec i (s.setPc (s.pc + 2#16)) = .next t) := by
  obtain ⟨hf, he⟩ | ⟨hf, hpc, he⟩ | ⟨w, hw, hd, he⟩ | ⟨w, i, hw, hd, he⟩ := step_cases s <;> rw [he] at h
  · cases h; exact .inl ⟨hf, rfl⟩
  · cases h; exact .inr (.inl ⟨hf, Nat.le_of_lt_succ hpc, rfl⟩)
  · cases h; exact .inr (.inr (.inl ⟨w, hw, hd, rfl⟩))
  · exact .inr (.inr (.inr ⟨i, ⟨w, hw, hd⟩, h⟩))

/-- What fetch and the latch leave alone, a cycle changes only by the instruction it runs. -/
theorem step_runs_of_ne {α : Type} {g : State → α} (hpc : ∀ s w, g (s.setPc w) = g s)
    (hraise : ∀ s c w, g (s.raise c w) = g s) {s t : State} (h : step s = .next t) (hne : g t ≠ g s) :
    ∃ i, s.AboutToRun i ∧ exec i (s.setPc (s.pc + 2#16)) = .next t := by
  obtain ⟨-, rfl⟩ | ⟨-, -, rfl⟩ | ⟨w, -, -, rfl⟩ | hrun := step_eq_next_cases h
  · exact absurd rfl hne
  · exact absurd (hraise _ _ _) hne
  · exact absurd ((hraise _ _ _).trans (hpc _ _)) hne
  · exact hrun

/-- A cycle never writes memory (R42). -/
theorem step_mem {s t : State} (h : step s = .next t) : t.mem = s.mem := by
  by_contra hne
  obtain ⟨i, -, hi⟩ := step_runs_of_ne (g := State.mem) (fun _ _ => rfl) (fun _ _ _ => rfl) h hne
  exact absurd (exec_mem hi) hne

/-- Settles O34: no cycle writes memory, so no run does. -/
theorem coreNeverWritesMemory : Obligations.CoreNeverWritesMemory := by
  intro k s t h
  exact runSteps_invariant (P := fun u => u.mem = s.mem) rfl
    (fun _ _ _ _ _ hu hstep => (step_mem hstep).trans hu) h

/-- Settles O30: of the four things a cycle can do, an instruction faults only as a draw out of bounds, which leaves the
state fetch left. -/
theorem faultsArePrecise : Obligations.FaultsArePrecise := by
  intro s t f h hs ht
  obtain ⟨hf, -⟩ | ⟨-, hpc, rfl⟩ | ⟨w, hw, hd, rfl⟩ | ⟨i, hrun, hi⟩ := step_eq_next_cases h
  · exact absurd hs hf
  · cases ht
    exact .inr (.inl ⟨rfl, rfl, hpc, rfl⟩)
  · cases ht
    exact .inl ⟨rfl, hw, hd, rfl⟩
  · obtain hf | ⟨x, y, n, rfl, hb, rfl⟩ := exec_fault_cases hi
    · cases ht.symm.trans (hf.trans hs)
    · cases ht
      exact .inr (.inr ⟨rfl, rfl, ⟨x, y, n, hrun, (State.not_spriteInBounds_iff _ n).1 hb⟩, rfl⟩)

/-- Settles O35: registers, `I` and cells are changed by the instruction a cycle runs, so by one of their writers; `PC`
by the advance of fetch, unless `JP` overwrites it; memory by nothing. -/
theorem writersOfEachPieceOfState : Obligations.WritersOfEachPieceOfState := by
  intro s t h
  refine ⟨fun r hr => ?_, fun hne => ?_, fun col row hne => ?_, fun hne => ?_, fun a => by rw [step_mem h]⟩
  · obtain ⟨i, hrun, hi⟩ := step_runs_of_ne (g := (State.getV · r)) (fun _ _ => rfl) (fun _ _ _ => rfl) h hr
    obtain ⟨nn, rfl⟩ | ⟨nn, rfl⟩ | ⟨h15, x, y, n, rfl⟩ := exec_writers_of_getV hi hr
    · exact .inl ⟨nn, hrun⟩
    · exact .inr (.inl ⟨nn, hrun⟩)
    · exact .inr (.inr ⟨h15, x, y, n, hrun⟩)
  · obtain ⟨i, hrun, hi⟩ := step_runs_of_ne (g := State.i) (fun _ _ => rfl) (fun _ _ _ => rfl) h hne
    obtain heq | ⟨nnn, rfl, -⟩ := exec_i_cases hi
    · exact absurd heq hne
    · exact ⟨nnn, hrun⟩
  · have hdisp : t.disp ≠ s.disp := fun e => hne (by rw [e])
    obtain ⟨i, hrun, hi⟩ := step_runs_of_ne (g := State.disp) (fun _ _ => rfl) (fun _ _ _ => rfl) h hdisp
    obtain rfl | ⟨x, y, n, rfl⟩ := exec_writers_of_disp hi hdisp
    · exact .inl hrun
    · exact .inr ⟨x, y, n, hrun⟩
  · obtain ⟨hf, -⟩ | ⟨-, hpc, -⟩ | ⟨w, hw, -, rfl⟩ | ⟨i, hrun, hi⟩ := step_eq_next_cases h
    · exact .inl hf
    · exact .inr (.inl hpc)
    · exact absurd (toNat_pc_add_two s hw.pc_succ_le) hne
    · by_cases hj : ∃ nnn, i = .jp nnn
      · obtain ⟨nnn, rfl⟩ := hj
        exact .inr (.inr ⟨nnn, hrun⟩)
      · have hpc : t.pc = s.pc + 2#16 := exec_pc_of_ne_jp (fun nnn e => hj ⟨nnn, e⟩) hi
        exact absurd (hpc ▸ toNat_pc_add_two s hrun.pc_succ_le) hne

/-! ### How a run ends -/

/-- Only the unknown opcode reads as the intended stop (R155). -/
theorem State.runStatus_eq_stopped_iff (s : State) (w : Word) :
    s.runStatus = .stopped w ↔ s.fault = some { cause := .unknownOpcode, info := w } := by
  unfold State.runStatus
  split <;> simp_all

/-- The unknown opcode never reads as an access out of bounds (R155). -/
theorem State.ne_unknownOpcode_of_runStatus {s : State} {c : FaultCause} (h : s.runStatus = .outOfBounds c) :
    c ≠ .unknownOpcode := by
  unfold State.runStatus at h
  split at h <;> simp_all

/-- Settles O39: the intended stop records cause 1, and a fault of that cause is precise. -/
theorem stopIdentifiesWordAndAddress : Obligations.StopIdentifiesWordAndAddress := by
  intro s t hs h
  refine ⟨fun w hstop => ?_, fun c hout => ?_⟩
  · have hf := (t.runStatus_eq_stopped_iff w).1 hstop
    obtain ⟨-, hw, hd, ht⟩ | ⟨hc, -⟩ | ⟨hc, -⟩ := faultsArePrecise s t _ h hs hf
    · refine ⟨hw, hd, ?_⟩
      have hpc : t.pc.toNat = s.pc.toNat + 2 := by rw [ht]; exact toNat_pc_add_two s hw.pc_succ_le
      omega
    · cases hc
    · cases hc
  · cases c with
    | unknownOpcode => exact absurd rfl (State.ne_unknownOpcode_of_runStatus hout)
    | fetchOutOfBounds => exact .inl rfl
    | spriteReadOutOfBounds => exact .inr rfl

end Sys2Proof.Machine

end

section
/-! PROOFS. Control flow depends on memory and `PC` alone, and a run without `JP` ends (spec/41_clear_and_jump.md R92,
spec/70_reset_and_hazards.md section 6). -/

namespace Sys2Proof.Machine

/-! ### A cycle that does not halt -/

/-- A cycle after which the core still runs has run an instruction. -/
theorem step_runs_of_fault_eq_none {s t : State} (h : step s = .next t) (ht : t.fault = none) :
    ∃ i, s.AboutToRun i ∧ exec i (s.setPc (s.pc + 2#16)) = .next t := by
  obtain ⟨hf, rfl⟩ | ⟨-, -, rfl⟩ | ⟨w, -, -, rfl⟩ | hrun := step_eq_next_cases h
  · exact absurd ht hf
  · cases ht
  · cases ht
  · exact hrun

/-- A run that ends in a running core was running after its first cycle. -/
theorem fault_eq_none_of_runSteps {k : Nat} {s t : State} (h : runSteps k s = .next t) (ht : t.fault = none) :
    s.fault = none := by
  by_contra hs
  cases (runSteps_of_halted hs k).symm.trans h
  exact hs ht

/-! ### Two runs side by side -/

/-- The instruction a core is about to run is read off its memory and `PC`. -/
theorem State.AboutToRun.unique {s s' : State} {i i' : Instr} (hmem : s.mem = s'.mem) (hpc : s.pc = s'.pc)
    (h : s.AboutToRun i) (h' : s'.AboutToRun i') : i = i' := by
  obtain ⟨w, hw, hd⟩ := h
  obtain ⟨w', hw', hd'⟩ := h'
  obtain ⟨-, -, rfl⟩ := (s.nextWord_iff w).1 hw
  obtain ⟨-, -, rfl⟩ := (s'.nextWord_iff w').1 hw'
  rw [hmem, hpc] at hd
  cases hd.symm.trans hd'
  rfl

/-- Where an instruction leaves `PC` depends on `PC` alone: `JP` goes to its target, and no other writes it (R92). -/
theorem exec_pc_congr {i : Instr} {s s' t t' : State} (hpc : s.pc = s'.pc) (h : exec i s = .next t)
    (h' : exec i s' = .next t') : t.pc = t'.pc := by
  by_cases hj : ∃ nnn, i = .jp nnn
  · obtain ⟨nnn, rfl⟩ := hj
    cases h
    cases h'
    rfl
  · have hne : ∀ nnn, i ≠ .jp nnn := fun nnn e => hj ⟨nnn, e⟩
    rw [exec_pc_of_ne_jp hne h, exec_pc_of_ne_jp hne h', hpc]

/-- Two cycles from the same memory and `PC` that do not halt end at the same `PC`. -/
theorem step_pc_congr {s s' t t' : State} (hmem : s.mem = s'.mem) (hpc : s.pc = s'.pc) (h : step s = .next t)
    (h' : step s' = .next t') (ht : t.fault = none) (ht' : t'.fault = none) : t.pc = t'.pc := by
  obtain ⟨i, hrun, hi⟩ := step_runs_of_fault_eq_none h ht
  obtain ⟨i', hrun', hi'⟩ := step_runs_of_fault_eq_none h' ht'
  obtain rfl := hrun.unique hmem hpc hrun'
  refine exec_pc_congr ?_ hi hi'
  rw [State.setPc_pc, State.setPc_pc, hpc]

/-- Settles O37: along two runs that do not halt, each pair of cycles keeps memory and `PC` equal. -/
theorem controlFlowIndependentOfData : Obligations.ControlFlowIndependentOfData := by
  intro k
  induction k with
  | zero =>
    intro s s' t t' _ hpc h h' _ _
    cases h
    cases h'
    exact hpc
  | succ k ih =>
    intro s s' t t' hmem hpc h h' ht ht'
    obtain ⟨u, hu, hrun⟩ := runSteps_succ_eq_next h
    obtain ⟨u', hu', hrun'⟩ := runSteps_succ_eq_next h'
    refine ih u u' t t' ?_ ?_ hrun hrun' ht ht'
    · rw [step_mem hu, step_mem hu', hmem]
    · exact step_pc_congr hmem hpc hu hu' (fault_eq_none_of_runSteps hrun ht) (fault_eq_none_of_runSteps hrun' ht')

/-! ### A run without jumps -/

/-- No two consecutive bytes of memory decode to `JP`. -/
def Memory.HoldsNoJp (m : Memory) : Prop :=
  ∀ (a : Nat) (hi lo : Byte), m.read a = .ok hi → m.read (a + 1) = .ok lo →
    ∀ nnn, decode (wordOfBytes hi lo) ≠ .instr (.jp nnn)

/-- Over such a memory no core is about to run `JP`. -/
theorem Memory.HoldsNoJp.ne_jp {s : State} {i : Instr} (hm : s.mem.HoldsNoJp) (h : s.AboutToRun i) (nnn : Addr12) :
    i ≠ .jp nnn := by
  rintro rfl
  obtain ⟨w, ⟨-, hi, lo, hhi, hlo, rfl⟩, hd⟩ := h
  exact hm _ hi lo hhi hlo nnn hd

/-- A cycle that neither halts nor jumps has fetched inside memory and moves `PC` on by 2. -/
theorem step_advances_pc {s t : State} (hm : s.mem.HoldsNoJp) (h : step s = .next t) (ht : t.fault = none) :
    s.pc.toNat + 1 ≤ 0xFFF ∧ t.pc.toNat = s.pc.toNat + 2 := by
  obtain ⟨i, hrun, hi⟩ := step_runs_of_fault_eq_none h ht
  have hpc : t.pc = s.pc + 2#16 := exec_pc_of_ne_jp (hm.ne_jp hrun) hi
  exact ⟨hrun.pc_succ_le, hpc ▸ toNat_pc_add_two s hrun.pc_succ_le⟩

/-- A run of `k` cycles that neither halts nor jumps takes `2 * k` bytes of memory from `PC` on. -/
theorem pc_add_two_mul_le {k : Nat} {s t : State} (hm : s.mem.HoldsNoJp) (h : runSteps k s = .next t)
    (ht : t.fault = none) : k = 0 ∨ s.pc.toNat + 2 * k ≤ 0x1000 := by
  induction k generalizing s with
  | zero => exact .inl rfl
  | succ k ih =>
    obtain ⟨u, hu, hrun⟩ := runSteps_succ_eq_next h
    obtain ⟨hle, hpc⟩ := step_advances_pc hm hu (fault_eq_none_of_runSteps hrun ht)
    have hrest := ih (s := u) (by rwa [step_mem hu]) hrun
    omega

/-- A run of any length from any state ends in a state. -/
theorem exists_runSteps_eq_next (k : Nat) (s : State) : ∃ t, runSteps k s = .next t := by
  induction k generalizing s with
  | zero => exact ⟨s, rfl⟩
  | succ k ih =>
    obtain ⟨u, hu⟩ := everyStateHasASuccessor s
    rw [runSteps_succ_of_next hu]
    exact ih u

/-- Settles O38: 2049 cycles that neither halt nor jump would take more than the 4096 bytes of memory. -/
theorem runWithoutJumpHalts : Obligations.RunWithoutJumpHalts := by
  intro s hm
  obtain ⟨t, ht⟩ := exists_runSteps_eq_next 2049 s
  refine ⟨t, ht, fun hf => ?_⟩
  have hle := pc_add_two_mul_le (s := s) hm ht hf
  omega

end Sys2Proof.Machine

end

section
/-! PROOFS. The invariant of the machine: at reset, kept by every cycle and every host transaction, so held by every
reachable state (spec/10_state.md section 11). -/

namespace Sys2Proof.Machine

/-! ### A recorded fault is explained -/

theorem State.faultExplained_of_none {s : State} (h : s.fault = none) : s.FaultExplained := by
  rw [State.FaultExplained, h]
  trivial

theorem State.faultExplained_raise_unknown {w : Word} (s : State) (h : decode w = .unknown w) :
    (s.raise .unknownOpcode w).FaultExplained := h

theorem State.faultExplained_raise_fetch {s : State} (h : 0xFFF ≤ s.pc.toNat) :
    (s.raise .fetchOutOfBounds s.pc).FaultExplained := ⟨rfl, h⟩

/-- A sprite has at most 15 rows, so one out of bounds starts in the last 14 bytes of memory or past it. -/
theorem State.faultExplained_raise_sprite {s : State} {n : Fin 16} (h : ¬s.SpriteInBounds n) :
    (s.raise .spriteReadOutOfBounds s.i).FaultExplained := by
  obtain ⟨hn, hi⟩ := (s.not_spriteInBounds_iff n).1 h
  have hlt := n.isLt
  exact ⟨rfl, by omega⟩

/-! ### Every step and every transaction -/

/-- Settles O41: memory lists no byte, `PC` and `I` are 0, and no fault is recorded. -/
theorem invariantHoldsAtReset : Obligations.InvariantHoldsAtReset :=
  ⟨Memory.wf_reset, Nat.zero_le _, Nat.zero_le _, State.faultExplained_of_none State.reset_fault⟩

theorem toNat_zext16_le (nnn : Addr12) : (zext16 nnn).toNat ≤ 0xFFF :=
  toNat_zext16 nnn ▸ Nat.le_of_lt_succ nnn.isLt

/-- A cycle leaves `PC` at most one past the last address: it advances only after a fetch in bounds (R33). -/
theorem step_pc_le {s t : State} (hs : s.pc.toNat ≤ 0x1000) (h : step s = .next t) : t.pc.toNat ≤ 0x1000 := by
  obtain hpc | ⟨hle, hpc⟩ | ⟨nnn, -, hpc⟩ := step_pc_cases h <;> rw [hpc]
  · exact hs
  · rw [toNat_pc_add_two s hle]
    omega
  · exact (toNat_zext16_le nnn).trans (Nat.le_succ _)

/-- A cycle leaves `I` in memory: it writes 12-bit addresses only (R33). -/
theorem step_i_le {s t : State} (hs : s.i.toNat ≤ 0xFFF) (h : step s = .next t) : t.i.toNat ≤ 0xFFF := by
  by_cases hne : t.i = s.i
  · rwa [hne]
  · obtain ⟨i, -, hi⟩ := step_runs_of_ne (g := State.i) (fun _ _ => rfl) (fun _ _ _ => rfl) h hne
    obtain heq | ⟨nnn, -, heq⟩ := exec_i_cases hi
    · exact absurd heq hne
    · exact heq ▸ toNat_zext16_le nnn

/-- A cycle leaves a latch that the state explains (R134). -/
theorem step_faultExplained {s t : State} (hs : s.FaultExplained) (h : step s = .next t) : t.FaultExplained := by
  obtain ⟨-, rfl⟩ | ⟨-, hpc, rfl⟩ | ⟨w, -, hd, rfl⟩ | ⟨i, hrun, hi⟩ := step_eq_next_cases h
  · exact hs
  · exact State.faultExplained_raise_fetch hpc
  · exact State.faultExplained_raise_unknown _ hd
  · obtain hf | ⟨x, y, n, -, hb, rfl⟩ := exec_fault_cases hi
    · exact State.faultExplained_of_none (hf.trans hrun.fault_eq_none)
    · exact State.faultExplained_raise_sprite hb

/-- Settles O42, clause by clause. -/
theorem invariantKeptByEveryStep : Obligations.InvariantKeptByEveryStep := by
  rintro s t ⟨hmem, hpc, hi, hf⟩ h
  exact ⟨step_mem h ▸ hmem, step_pc_le hpc h, step_i_le hi h, step_faultExplained hf h⟩

/-- A host write keeps the invariant: it touches memory alone, and keeps that canonical. -/
theorem State.Inv.hostWrite {s : State} (h : s.Inv) (a : Fin 4096) (b : Byte) : (s.hostWrite a b).Inv := by
  obtain ⟨hmem, hpc, hi, hf⟩ := h
  exact ⟨Memory.wf_write hmem a b, hpc, hi, hf⟩

theorem State.Inv.transact {s s' : State} {t : Transaction} {r : Response} (hs : s.Inv)
    (h : Machine.transact t s = .next (s', r)) : s'.Inv := by
  obtain ⟨-, rfl⟩ | ⟨a, b, -, rfl⟩ | ⟨-, hstep⟩ | ⟨-, -, -, rfl⟩ := transact_cases h
  · exact invariantHoldsAtReset
  · exact hs.hostWrite a b
  · exact invariantKeptByEveryStep s s' hs hstep
  · exact hs

theorem Reachable.inv {s : State} (h : Reachable s) : s.Inv := by
  induction h with
  | reset => exact invariantHoldsAtReset
  | transact _ ht ih => exact ih.transact ht

/-- Settles O43: a reachable state has the invariant, and at 0x1000 a fetch is out of bounds. -/
theorem reachableRegistersInRange : Obligations.ReachableRegistersInRange := by
  intro s h
  obtain ⟨hmem, hpc, hi, -⟩ := h.inv
  refine ⟨hpc, hi, hmem, fun h1000 hf => ?_⟩
  rw [step_of_fetch_gt hf (by rw [h1000]; decide), h1000]

end Sys2Proof.Machine

end

section
/-! PROOFS. Fetch, its fault and the sprite's, the halt, and `ADD Vx, nn` (spec/40_cycle_fetch_dispatch.md,
spec/42_register_immediate.md R101, spec/60_exceptions.md). -/

namespace Sys2Proof.Machine

/-! ### Fetch -/

/-- Settles O24: two bytes read at `PC` and `PC + 1` put the fetch in bounds, where it answers their word. -/
theorem fetchAdvancesPcByTwo : Obligations.FetchAdvancesPcByTwo := by
  refine ⟨fun s hi lo hhi hlo => ?_, fun s hpc => fetch_of_gt s (Nat.lt_succ_of_le hpc)⟩
  obtain ⟨-, rfl⟩ := (s.mem.read_eq_ok_iff _ hi).1 hhi
  obtain ⟨hle, rfl⟩ := (s.mem.read_eq_ok_iff _ lo).1 hlo
  exact ⟨_, _, fetch_of_le s hle, toNat_wordOfBytes _ _, toNat_pc_add_two s hle, rfl, rfl, rfl, rfl, rfl⟩

/-- Settles O25: no word is fetched, so the cycle only writes the latch. -/
theorem fetchOutOfBoundsHalts : Obligations.FetchOutOfBoundsHalts :=
  ⟨rfl, fun _ hf hpc => step_of_fetch_gt hf (Nat.lt_succ_of_le hpc)⟩

/-! ### A sprite out of bounds -/

/-- Settles O22: the rows are read before anything changes, so the draw, and the cycle that runs it, only raise. -/
theorem spriteOutOfBoundsFaults : Obligations.SpriteOutOfBoundsFaults := by
  refine ⟨rfl, fun x y n s hn hi => ?_, fun x y n s hrun hn hi => ?_⟩
  · exact execDrw_of_not_inBounds x y ((s.not_spriteInBounds_iff n).2 ⟨hn, hi⟩)
  · have hb : ¬(s.setPc (s.pc + 2#16)).SpriteInBounds n := (State.not_spriteInBounds_iff _ n).2 ⟨hn, hi⟩
    rw [hrun.step_eq]
    exact execDrw_of_not_inBounds x y hb

/-! ### The halt -/

/-- Settles O28, by induction on the number of cycles, each of which does nothing. -/
theorem haltedCoreStaysAsItIs : Obligations.HaltedCoreStaysAsItIs :=
  fun _ k hf => runSteps_of_halted hf k

/-- Settles O29: besides reset, a transaction writes memory, or runs a cycle, which a halted core ignores, or reads. -/
theorem onlyResetClearsFault : Obligations.OnlyResetClearsFault := by
  refine ⟨fun tr s s' r h hf hne => ?_, fun _ => rfl⟩
  obtain ⟨hreset, -⟩ | ⟨a, b, -, rfl⟩ | ⟨-, hstep⟩ | ⟨-, -, -, rfl⟩ := transact_cases h
  · exact absurd hreset hne
  · exact ⟨rfl, rfl, rfl, rfl, rfl⟩
  · cases (step_of_halted hf).symm.trans hstep
    exact ⟨rfl, rfl, rfl, rfl, rfl⟩
  · exact ⟨rfl, rfl, rfl, rfl, rfl⟩

end Sys2Proof.Machine

namespace Sys2Proof

/-! ### `ADD Vx, nn` -/

theorem toNat_encode_addV (x : RegIndex) (nn : Byte) :
    (encode (.addV x nn)).toNat = 0x7000 + 256 * x.val + nn.toNat :=
  toNat_formatXI 0x7#4 x nn

end Sys2Proof

namespace Sys2Proof.Machine

/-- Settles O11: `ADD Vx` is one register write, of the wrapped sum, which no other register or field sees. -/
theorem addVWrapsWithoutFlag : Obligations.AddVWrapsWithoutFlag := by
  refine ⟨fun w x nn => ?_, fun x nn s =>
    ⟨_, exec_addV x nn s, ?_, fun r hr => s.getV_setV_ne _ hr, rfl, rfl, fun _ => rfl, fun _ _ => rfl, rfl⟩⟩
  · rw [decode_eq_instr_iff, ← BitVec.toNat_inj, toNat_encode_addV]
  · rw [s.getV_setV_self, toNat_addWrap]

end Sys2Proof.Machine

end

section
/-! PROOFS. The host's port: reads, writes, what a write leaves for the next fetch, and the boot
(spec/20_memory.md sections 7 and 8, spec/70_reset_and_hazards.md sections 2, 3 and 5). -/

namespace Sys2Proof.Machine

/-! ### Reads -/

/-- Settles O46: the two cases of the read primitive. -/
theorem memoryReadIsBoundsChecked : Obligations.MemoryReadIsBoundsChecked :=
  fun m _ => ⟨fun h => ⟨_, m.read_of_le h⟩, m.read_of_gt⟩

theorem transact_hostRead (a : Fin 4096) (s : State) :
    transact (.hostRead a) s = .next (s, .byte (s.mem.lookup a.val)) := rfl

/-- Settles O48: an address of the port is in memory, and each read answers one field and hands the state back. -/
theorem hostReadsChangeNothing : Obligations.HostReadsChangeNothing := by
  intro s
  refine ⟨fun a => ⟨_, s.mem.read_of_le (Nat.le_of_lt_succ a.isLt), transact_hostRead a s⟩, ?_⟩
  exact ⟨fun _ _ => rfl, rfl, rfl, fun _ => rfl, rfl, rfl⟩

/-! ### Writes -/

theorem transact_hostWrite (a : Fin 4096) (b : Byte) (s : State) :
    transact (.hostWrite a b) s = .next (s.hostWrite a b, .done) := rfl

/-- A write in front of a sequence of transactions. -/
theorem runTransactions_hostWrite (a : Fin 4096) (b : Byte) (ts : List Transaction) (s : State) :
    runTransactions (.hostWrite a b :: ts) s = runTransactions ts (s.hostWrite a b) := rfl

/-- A byte of canonical memory after a host write: the written one in its own place, the old one in every other
(R54). -/
theorem State.lookup_hostWrite {s : State} (hm : s.mem.wf = true) (a : Fin 4096) (b : Byte) (k : Nat) :
    (s.hostWrite a b).mem.lookup k = if k = a.val then b else s.mem.lookup k :=
  Memory.lookup_write hm a b k

/-- Settles O47: a byte read after the write is the written one or the old one. -/
theorem hostWriteThenHostRead : Obligations.HostWriteThenHostRead := by
  intro s a b hm
  refine ⟨_, transact_hostWrite a b s, ?_, fun k hk => ⟨_, transact_hostRead k s, ?_⟩, rfl, rfl, rfl, rfl, rfl,
    Memory.wf_write hm a b⟩
  · rw [transact_hostRead, State.lookup_hostWrite hm, if_pos rfl]
  · rw [transact_hostRead, State.lookup_hostWrite hm, if_neg (Fin.val_ne_of_ne hk)]

/-- The word a running core fetches next after the host has written its two bytes at `PC` (R54, R55). -/
theorem State.nextWord_hostWrite {s : State} {a a' : Fin 4096} (w : Word) (hm : s.mem.wf = true) (hf : s.fault = none)
    (ha : a.val = s.pc.toNat) (ha' : a'.val = s.pc.toNat + 1) :
    ((s.hostWrite a (wordHi w)).hostWrite a' (wordLo w)).NextWord w := by
  have hm' : (s.hostWrite a (wordHi w)).mem.wf = true := Memory.wf_write hm a _
  have hpc : ((s.hostWrite a (wordHi w)).hostWrite a' (wordLo w)).pc = s.pc := rfl
  refine (State.nextWord_iff _ w).2 ⟨hf, ?_, ?_⟩ <;> rw [hpc]
  · have hlt := a'.isLt
    omega
  · simp [State.lookup_hostWrite hm', State.lookup_hostWrite hm, ha, ha']

/-- Settles O49: what the host wrote at `PC` is the next word, and it decodes to the instruction. -/
theorem hostWriteSeenByNextFetch : Obligations.HostWriteSeenByNextFetch := by
  intro s i a a' hm hf ha ha'
  refine ⟨_, rfl, rfl, ?_⟩
  have hrun : ((s.hostWrite a (wordHi (encode i))).hostWrite a' (wordLo (encode i))).AboutToRun i :=
    ⟨_, State.nextWord_hostWrite (encode i) hm hf ha ha', decode_encode i⟩
  exact hrun.step_eq

/-! ### The boot -/

/-- Settles O45: the two writes place the word of the jump where the core fetches after reset. -/
theorem bootJumpReachesBase : Obligations.BootJumpReachesBase := by
  intro base
  have hrun :
      ((State.reset.hostWrite 0 (wordHi (encode (.jp base)))).hostWrite 1 (wordLo (encode (.jp base)))).AboutToRun
        (.jp base) :=
    ⟨_, State.nextWord_hostWrite _ Memory.wf_reset rfl rfl rfl, decode_encode _⟩
  exact ⟨_, _, rfl, hrun.step_jp, toNat_zext16 base, rfl⟩

/-- A running core at `PC = 0` with nothing placed there: as reset leaves it, and as every write from 2 on does. -/
structure State.BootEmpty (s : State) : Prop where
  wf : s.mem.wf = true
  running : s.fault = none
  pc_eq : s.pc = 0#16
  byte0 : s.mem.lookup 0 = 0#8
  byte1 : s.mem.lookup 1 = 0#8

theorem State.bootEmpty_reset : State.reset.BootEmpty := ⟨Memory.wf_reset, rfl, rfl, rfl, rfl⟩

theorem State.BootEmpty.hostWrite {s : State} (h : s.BootEmpty) {a : Fin 4096} (ha : 2 ≤ a.val) (b : Byte) :
    (s.hostWrite a b).BootEmpty where
  wf := Memory.wf_write h.wf a b
  running := h.running
  pc_eq := h.pc_eq
  byte0 := by rw [State.lookup_hostWrite h.wf, if_neg (by omega), h.byte0]
  byte1 := by rw [State.lookup_hostWrite h.wf, if_neg (by omega), h.byte1]

/-- Writes from 2 on complete and place nothing at 0x000 and 0x001. -/
theorem State.BootEmpty.runTransactions {ts : List Transaction} {s : State} (h : s.BootEmpty)
    (hts : ∀ t ∈ ts, ∃ a b, t = .hostWrite a b ∧ 2 ≤ a.val) :
    ∃ s', Machine.runTransactions ts s = .next s' ∧ s'.BootEmpty := by
  induction ts generalizing s with
  | nil => exact ⟨s, rfl, h⟩
  | cons t ts ih =>
    obtain ⟨a, b, rfl, ha⟩ := hts t List.mem_cons_self
    rw [runTransactions_hostWrite]
    exact ih (h.hostWrite ha b) fun t ht => hts t (List.mem_cons_of_mem _ ht)

/-- Such a core fetches the word 0x0000 next. -/
theorem State.BootEmpty.nextWord {s : State} (h : s.BootEmpty) : s.NextWord 0x0000#16 := by
  refine (s.nextWord_iff _).2 ⟨h.running, by rw [h.pc_eq]; decide, ?_⟩
  rw [h.pc_eq, BitVec.toNat_ofNat, Nat.zero_mod, h.byte0, h.byte1]
  rfl

/-- Settles O44: whatever stands from 2 on, the first word is 0x0000, and it is unknown. -/
theorem bootHazardHaltsAtOnce : Obligations.BootHazardHaltsAtOnce := by
  intro ts hts
  obtain ⟨s, hs, hempty⟩ := State.bootEmpty_reset.runTransactions hts
  refine ⟨s, _, hs, hempty.nextWord.step_unknown (by decide), rfl, ?_⟩
  rw [State.raise_pc, State.setPc_pc, hempty.pc_eq]
  rfl

end Sys2Proof.Machine

end

section
/-! PROOFS. The instruction words as numbers, the opcode map over all words, and its counts (spec/30_encoding.md
sections 2, 3, 5, 6 and 8). -/

namespace Sys2Proof

/-! ### Words as numbers -/

theorem toNat_encode_drw (x y : RegIndex) (n : Fin 16) :
    (encode (.drw x y n)).toNat = 0xD000 + 256 * x.val + 16 * y.val + n.val :=
  toNat_formatXYN 0xD#4 x y n

/-- The two bytes of a word, the high one first (R43). -/
theorem toNat_eq_wordHi_wordLo (w : Word) : w.toNat = 256 * (wordHi w).toNat + (wordLo w).toNat := by
  rw [← toNat_wordOfBytes, wordOfBytes_wordHi_wordLo]

/-- Settles O2, row by row. -/
theorem encodedWordsAsNumbers : Obligations.EncodedWordsAsNumbers :=
  ⟨rfl, toNat_encode_jp, toNat_encode_ldV, toNat_encode_addV, toNat_encode_ldI, toNat_encode_drw,
    fun i => ⟨_, _, rfl, toNat_eq_wordHi_wordLo (encode i)⟩⟩

/-- Settles O5: each pair of bytes is the encoding of its instruction, and 00 EE is no instruction's. -/
theorem workedWordsDecode : Obligations.WorkedWordsDecode := by
  refine ⟨?_, ?_, ?_, ?_, ?_, ?_, ?_, by decide⟩
  · exact decodeBytes_encodeBytes (.jp 0x200#12) []
  · exact decodeBytes_encodeBytes (.ldV 3 0x7F#8) []
  · exact decodeBytes_encodeBytes (.addV 14 0x01#8) []
  · exact decodeBytes_encodeBytes (.ldI 0x2A0#12) []
  · exact decodeBytes_encodeBytes (.drw 0 1 5) []
  · exact decodeBytes_encodeBytes (.drw 10 15 0) []
  · exact decodeBytes_encodeBytes .cls []

/-! ### The class under the mask -/

/-- `w & 0xF000 = match` selects the words of one class (R65). -/
theorem and_class_mask_eq_iff (w : Word) (c : BitVec 4) :
    w &&& 0xF000#16 = BitVec.ofNat 16 (4096 * c.toNat) ↔ w.toNat / 4096 = c.toNat := by
  rw [Laws.TableRow.and_class_mask, ← BitVec.toNat_inj, BitVec.toNat_ofNat, BitVec.toNat_ofNat]
  omega

/-! ### A word of a format: its class under the mask, and its operands as numbers (R62, R65) -/

theorem eq_formatA_iff (w : Word) (c : BitVec 4) (nnn : Addr12) :
    w = formatA c nnn ↔ w &&& 0xF000#16 = BitVec.ofNat 16 (4096 * c.toNat) ∧ nnn.toNat = w.toNat % 4096 := by
  rw [and_class_mask_eq_iff, ← BitVec.toNat_inj, toNat_formatA]
  omega

theorem eq_formatXI_iff (w : Word) (c : BitVec 4) (x : RegIndex) (nn : Byte) :
    w = formatXI c x nn ↔ w &&& 0xF000#16 = BitVec.ofNat 16 (4096 * c.toNat) ∧
      x.val = w.toNat / 256 % 16 ∧ nn.toNat = w.toNat % 256 := by
  rw [and_class_mask_eq_iff, ← BitVec.toNat_inj, toNat_formatXI]
  omega

theorem eq_formatXYN_iff (w : Word) (c : BitVec 4) (x y : RegIndex) (n : Fin 16) :
    w = formatXYN c x y n ↔ w &&& 0xF000#16 = BitVec.ofNat 16 (4096 * c.toNat) ∧
      x.val = w.toNat / 256 % 16 ∧ y.val = w.toNat / 16 % 16 ∧ n.val = w.toNat % 16 := by
  rw [and_class_mask_eq_iff, ← BitVec.toNat_inj, toNat_formatXYN]
  omega

/-! ### The opcode map over all words -/

/-- A word is unknown iff it is neither the word of `CLS` nor of one of the five classes (R66). -/
theorem decode_eq_unknown_iff (w : Word) :
    decode w = .unknown w ↔ w.toNat ≠ 0x00E0 ∧ w.toNat / 4096 ∉ [0x1, 0x6, 0x7, 0xA, 0xD] := by
  obtain ⟨hw, hd⟩ | ⟨hc, hd⟩ | ⟨hc, hd⟩ | ⟨hc, hd⟩ | ⟨hc, hd⟩ | ⟨hc, hd⟩ | ⟨hw, hc, hd⟩ := decode_cases w <;> rw [hd]
  · simp [hw]
  · simp [hc]
  · simp [hc]
  · simp [hc]
  · simp [hc]
  · simp [hc]
  · simp [hw, hc]

/-- The same with each class as its row's mask and match (R65, R66). -/
theorem decode_eq_unknown_iff_mask (w : Word) :
    decode w = .unknown w ↔
      w ≠ 0x00E0#16 ∧ w &&& 0xF000#16 ∉ [0x1000#16, 0x6000#16, 0x7000#16, 0xA000#16, 0xD000#16] := by
  rw [decode_eq_unknown_iff, Laws.TableRow.and_class_mask]
  simp only [ne_eq, List.mem_cons, List.not_mem_nil, or_false, ← BitVec.toNat_inj, BitVec.toNat_ofNat]
  omega

/-- Settles O3: a known word is the format of its row's class and its operands. -/
theorem decodeByMaskAndMatch : Obligations.DecodeByMaskAndMatch := by
  intro w
  refine ⟨?_, fun nnn => ?_, fun x nn => ?_, fun x nn => ?_, fun nnn => ?_, fun x y n => ?_,
    decode_eq_unknown_iff_mask w⟩ <;> rw [decode_eq_instr_iff]
  · rw [show (0xFFFF#16 : Word) = BitVec.allOnes 16 from rfl, BitVec.and_allOnes, encode]
  · exact eq_formatA_iff w 0x1#4 nnn
  · exact eq_formatXI_iff w 0x6#4 x nn
  · exact eq_formatXI_iff w 0x7#4 x nn
  · exact eq_formatA_iff w 0xA#4 nnn
  · exact eq_formatXYN_iff w 0xD#4 x y n

/-! ### Counting -/

/-- An instruction is its row and the operands of that row. -/
def instrEquivOperands :
    Instr ≃ Unit ⊕ Addr12 ⊕ (RegIndex × Byte) ⊕ (RegIndex × Byte) ⊕ Addr12 ⊕ (RegIndex × RegIndex × Fin 16) where
  toFun
    | .cls => .inl ()
    | .jp nnn => .inr (.inl nnn)
    | .ldV x nn => .inr (.inr (.inl (x, nn)))
    | .addV x nn => .inr (.inr (.inr (.inl (x, nn))))
    | .ldI nnn => .inr (.inr (.inr (.inr (.inl nnn))))
    | .drw x y n => .inr (.inr (.inr (.inr (.inr (x, y, n)))))
  invFun
    | .inl () => .cls
    | .inr (.inl nnn) => .jp nnn
    | .inr (.inr (.inl (x, nn))) => .ldV x nn
    | .inr (.inr (.inr (.inl (x, nn)))) => .addV x nn
    | .inr (.inr (.inr (.inr (.inl nnn)))) => .ldI nnn
    | .inr (.inr (.inr (.inr (.inr (x, y, n))))) => .drw x y n
  left_inv i := by cases i <;> rfl
  right_inv o := by
    rcases o with ⟨⟩ | nnn | ⟨x, nn⟩ | ⟨x, nn⟩ | nnn | ⟨x, y, n⟩ <;> rfl

theorem natCard_bitVec (n : Nat) : Nat.card (BitVec n) = 2 ^ n :=
  (Nat.card_congr BitVec.equivFin.toEquiv).trans (Nat.card_fin _)

theorem card_instr : Nat.card Instr = 20481 := by
  rw [Nat.card_congr instrEquivOperands]
  simp only [Nat.card_sum, Nat.card_prod, Nat.card_unique, natCard_bitVec, Nat.card_fin]
  rfl

theorem encode_injective : Function.Injective encode := by
  intro i j h
  have hd : decode (encode i) = decode (encode j) := by rw [h]
  rw [decode_encode, decode_encode] at hd
  exact Decoded.instr.inj hd

/-- The known words are the encodings. -/
theorem setOf_decode_instr : {w : Word | ∃ i, decode w = .instr i} = Set.range encode := by
  ext w
  simp only [Set.mem_ofPred_eq, Set.mem_range, decode_eq_instr_iff, eq_comm]

theorem decode_eq_unknown_iff_not_known (w : Word) : decode w = .unknown w ↔ ¬∃ i, decode w = .instr i := by
  obtain ⟨-, hd⟩ | ⟨-, hd⟩ | ⟨-, hd⟩ | ⟨-, hd⟩ | ⟨-, hd⟩ | ⟨-, hd⟩ | ⟨-, -, hd⟩ := decode_cases w <;> simp [hd]

theorem ncard_known : {w : Word | ∃ i, decode w = .instr i}.ncard = 20481 := by
  rw [setOf_decode_instr, ← Nat.card_coe_set_eq, Nat.card_range_of_injective encode_injective, card_instr]

/-- Settles O4: the known words are as many as the instructions, and the unknown ones are the rest. -/
theorem knownAndUnknownWordCounts : Obligations.KnownAndUnknownWordCounts := by
  refine ⟨ncard_known, ?_⟩
  have hcompl : {w : Word | decode w = .unknown w} = {w : Word | ∃ i, decode w = .instr i}ᶜ :=
    Set.ext decode_eq_unknown_iff_not_known
  change {w : Word | decode w = .unknown w}.ncard = 45055
  rw [hcompl, Set.ncard_compl, ncard_known, natCard_bitVec]
  rfl

end Sys2Proof

end

section
/-! PROOFS. The assembler: which lines it refuses, what the others assemble to, and the text of an instruction read back
(spec/30_encoding.md R69, R70; decision D12). -/

namespace Sys2Proof

/-! ### Lines -/

/-- The instruction a line names, in range, is the one the line is the name of (R69). -/
theorem AsmLine.instr?_eq_some_iff (l : AsmLine) (i : Instr) : l.instr? = some i ↔ i.asm = l := by
  constructor
  · intro h
    cases l with
    | cls => cases h; rfl
    | db bytes => cases h
    | jp | ldV | addV | ldI | drw =>
      rw [AsmLine.instr?] at h
      split at h <;> cases h
      rfl
  · rintro rfl
    cases i with
    | cls => rfl
    | jp | ldV | addV | ldI => simp [Instr.asm, AsmLine.instr?]; omega
    | drw => simp [Instr.asm, AsmLine.instr?]

/-- A line that is no data names an instruction exactly when its operands are in range (R69). -/
theorem AsmLine.instr?_eq_none_iff {l : AsmLine} (h : ∀ data, l ≠ .db data) :
    l.instr? = none ↔ l.wellFormed = false := by
  cases l with
  | cls => simp [AsmLine.instr?, AsmLine.wellFormed]
  | db data => exact absurd rfl (h data)
  | jp | ldV | addV | ldI | drw => simp [AsmLine.instr?, AsmLine.wellFormed]; omega

/-- A line that is no data assembles to the bytes of the instruction it names (R71). -/
theorem AsmLine.assemble_of_ne_db {l : AsmLine} (h : ∀ data, l ≠ .db data) : l.assemble = l.instr?.map encodeBytes := by
  cases l with
  | db data => exact absurd rfl (h data)
  | cls | jp | ldV | addV | ldI | drw => rfl

/-- Settles O6: a line assembles as data in range, or as the instruction it names, which its operands in range give. -/
theorem assemblerRefusesOutOfRange : Obligations.AssemblerRefusesOutOfRange := by
  refine ⟨fun l => ?_, fun l bs h hdb => ?_⟩
  · by_cases hdb : ∃ data, l = .db data
    · obtain ⟨data, rfl⟩ := hdb
      simp [AsmLine.assemble]
    · have hne : ∀ data, l ≠ .db data := fun data e => hdb ⟨data, e⟩
      rw [AsmLine.assemble_of_ne_db hne, Option.map_eq_none_iff, AsmLine.instr?_eq_none_iff hne]
  · rw [AsmLine.assemble_of_ne_db hdb, Option.map_eq_some_iff] at h
    obtain ⟨i, hi, rfl⟩ := h
    exact ⟨i, decodeBytes_encodeBytes i [], (l.instr?_eq_some_iff i).1 hi⟩

end Sys2Proof

namespace Sys2Proof.Machine

/-! ### Numbers and registers as text -/

/-- One digit more of a hexadecimal number. -/
theorem digits?_hexChar {n : Nat} (h : n < 16) (value : Nat) (cs : List Char) :
    digits? 16 value (hexChar n :: cs) = digits? 16 (16 * value + n) cs := by
  rw [digits?, digit?_hexChar h]
  exact if_pos h

theorem number?_hex (c : Char) (cs : List Char) : number? ('0' :: 'x' :: c :: cs) = digits? 16 0 (c :: cs) := rfl

theorem number?_renderAddr (a : Addr12) : number? (renderAddr a) = some a.toNat := by
  rw [renderAddr, number?_hex, digits?_hexChar (by omega), digits?_hexChar (by omega), digits?_hexChar (by omega),
    digits?]
  congr 1
  omega

theorem number?_renderByte (b : Byte) : number? (renderByte b) = some b.toNat := by
  rw [renderByte, number?_hex, digits?_hexChar (by omega), digits?_hexChar (by omega), digits?]
  congr 1
  omega

theorem number?_nibble {n : Nat} (h : n < 16) : number? ['0', 'x', hexChar n] = some n := by
  rw [number?_hex, digits?_hexChar h, digits?, Nat.mul_zero, Nat.zero_add]

/-! ### The pieces of an instruction's text -/

/-- The pieces of an instruction's text: its mnemonic, and its operands parted by commas. -/
def renderTokens : Instr → List Token
  | .cls => [.word ['C', 'L', 'S']]
  | .jp nnn => [.word ['J', 'P'], .word (renderAddr nnn)]
  | .ldV x nn => [.word ['L', 'D'], .word ['V', hexChar x.val], .comma, .word (renderByte nn)]
  | .addV x nn => [.word ['A', 'D', 'D'], .word ['V', hexChar x.val], .comma, .word (renderByte nn)]
  | .ldI nnn => [.word ['L', 'D'], .word ['I'], .comma, .word (renderAddr nnn)]
  | .drw x y n =>
    [.word ['D', 'R', 'W'], .word ['V', hexChar x.val], .comma, .word ['V', hexChar y.val], .comma,
      .word ['0', 'x', hexChar n.val]]

theorem tokenize_renderAddr (a : Addr12) : tokenize (renderAddr a) [] = [.word (renderAddr a)] := by
  have h1 : a.toNat / 256 < 16 := by omega
  have h2 : a.toNat / 16 % 16 < 16 := by omega
  have h3 : a.toNat % 16 < 16 := by omega
  simp [renderAddr, tokenize, ↓tokenize_hexChar h1, ↓tokenize_hexChar h2, ↓tokenize_hexChar h3, flushWord]

theorem tokenize_renderByte (b : Byte) : tokenize (renderByte b) [] = [.word (renderByte b)] := by
  have h1 : b.toNat / 16 < 16 := by omega
  have h2 : b.toNat % 16 < 16 := by omega
  simp [renderByte, tokenize, ↓tokenize_hexChar h1, ↓tokenize_hexChar h2, flushWord]

/-- The text of an instruction falls into its pieces: every separator ends a word, and no digit does. -/
theorem tokenize_renderInstr (i : Instr) : tokenize (renderInstr i) [] = renderTokens i := by
  cases i with
  | cls => rfl
  | jp nnn => simp [renderInstr, renderTokens, tokenize, flushWord, tokenize_renderAddr]
  | ldV x nn =>
    simp [renderInstr, renderTokens, tokenize, flushWord, ↓tokenize_hexChar x.isLt, tokenize_renderByte]
  | addV x nn =>
    simp [renderInstr, renderTokens, tokenize, flushWord, ↓tokenize_hexChar x.isLt, tokenize_renderByte]
  | ldI nnn => simp [renderInstr, renderTokens, tokenize, flushWord, tokenize_renderAddr]
  | drw x y n =>
    simp [renderInstr, renderTokens, tokenize, flushWord, ↓tokenize_hexChar x.isLt, ↓tokenize_hexChar y.isLt,
      ↓tokenize_hexChar n.isLt]

/-- The pieces make the form of the line that names the instruction, and each operand reads as its value (R69). -/
theorem formOf?_renderTokens (i : Instr) : formOf? (renderTokens i) = some i.asm := by
  cases i with
  | cls => rfl
  | jp nnn => simp [renderTokens, formOf?, number?_renderAddr, Instr.asm]
  | ldV x nn => simp [renderTokens, formOf?, registerNumber?, register?_hexChar x.isLt, number?_renderByte, Instr.asm]
  | addV x nn => simp [renderTokens, formOf?, registerNumber?, register?_hexChar x.isLt, number?_renderByte, Instr.asm]
  | ldI nnn => simp [renderTokens, formOf?, number?_renderAddr, Instr.asm]
  | drw x y n =>
    simp [renderTokens, formOf?, register?_hexChar x.isLt, register?_hexChar y.isLt, number?_nibble n.isLt, Instr.asm]

/-- Text whose pieces make a line in range reads as that line (R69). -/
theorem parseLine_of_formOf? {text : List Char} {l : AsmLine} (h : formOf? (tokenize text []) = some l)
    (hl : l.wellFormed = true) : parseLine text = .ok (some l) := by
  rw [parseLine]
  cases ht : tokenize text [] with
  | nil =>
    rw [ht] at h
    cases h
  | cons t ts =>
    rw [ht] at h
    simp only [h, hl, if_true]

/-- Settles O7: the text falls into the pieces of the instruction's form, and every digit reads back. -/
theorem assemblerTextReadsBack : Obligations.AssemblerTextReadsBack := fun i =>
  parseLine_of_formOf? (by rw [tokenize_renderInstr, formOf?_renderTokens]) i.wellFormed_all

end Sys2Proof.Machine

end

section
/-! PROOFS. `DRW`: the closed form of a draw in bounds, its frame, the collision flag, and the same draw twice
(spec/43_draw_sprite.md). -/

namespace Sys2Proof.Machine

/-! ### Pixels off the display -/

theorem pixelMask_off_display {sx sy : Nat} (h : 64 ≤ sx ∨ 32 ≤ sy) (p : Bool) (col : Fin 64) (row : Fin 32) :
    pixelMask sx sy p col row = false := by
  have hne : ¬(col.val = sx ∧ row.val = sy) := by omega
  simp [pixelMask, hne]

/-- Settles O21: no cell lies under such a pixel. -/
theorem pixelPastEdgeIsSkipped : Obligations.PixelPastEdgeIsSkipped :=
  fun sx sy p c h => (compositePixel_draws sx sy p c).eq_of_mask_eq_false (pixelMask_off_display h p)

/-! ### The pixels of a draw -/

/-- The lit pixels of the sprite `DRW Vx, Vy, n` draws, over the cells they cover. -/
def State.drawMask (s : State) (x y : RegIndex) (n : Fin 16) : Fin 64 → Fin 32 → Bool :=
  rowsMask (s.drawLeft x) (s.drawTop y) (s.mem.bytes s.i.toNat n.val)

/-- The state after a draw in bounds. -/
def State.drawn (s : State) (x y : RegIndex) (n : Fin 16) : State := s.drawRows x y (s.mem.bytes s.i.toNat n.val)

theorem exec_drw_of_inBounds (x y : RegIndex) {n : Fin 16} {s : State} (h : s.SpriteInBounds n) :
    exec (.drw x y n) s = .next (s.drawn x y n) :=
  execDrw_of_inBounds x y h

@[simp] theorem State.drawn_pc (s : State) (x y : RegIndex) (n : Fin 16) : (s.drawn x y n).pc = s.pc :=
  s.drawRows_pc x y _
@[simp] theorem State.drawn_i (s : State) (x y : RegIndex) (n : Fin 16) : (s.drawn x y n).i = s.i :=
  s.drawRows_i x y _
@[simp] theorem State.drawn_mem (s : State) (x y : RegIndex) (n : Fin 16) : (s.drawn x y n).mem = s.mem :=
  s.drawRows_mem x y _
@[simp] theorem State.drawn_fault (s : State) (x y : RegIndex) (n : Fin 16) : (s.drawn x y n).fault = s.fault :=
  s.drawRows_fault x y _

theorem State.getV_drawn_of_ne (s : State) (x y : RegIndex) (n : Fin 16) {r : RegIndex} (h : r ≠ 15) :
    (s.drawn x y n).getV r = s.getV r :=
  s.drawRows_getV_ne x y _ h

theorem State.cell_drawn (s : State) (x y : RegIndex) (n : Fin 16) (col : Fin 64) (row : Fin 32) :
    (s.drawn x y n).disp.cell col row = (s.disp.cell col row ^^ s.drawMask x y n col row) :=
  s.drawRows_cell x y _ col row

/-- `VF` after a draw is 1 exactly where a lit pixel met a lit cell (R117). -/
theorem State.flag_drawn_eq_one_iff (s : State) (x y : RegIndex) (n : Fin 16) :
    (s.drawn x y n).getV 15 = 1#8 ↔ ∃ col row, s.drawMask x y n col row = true ∧ s.disp.cell col row = true := by
  obtain ⟨hv, hex⟩ | ⟨hv, hno⟩ := s.drawRows_flag x y (s.mem.bytes s.i.toNat n.val)
  · exact iff_of_true hv hex
  · exact iff_of_false (fun h1 => absurd (hv.symm.trans h1) (by decide)) hno

/-- `VF` after a draw is 0 or 1 (R112, R117). -/
theorem State.flag_drawn (s : State) (x y : RegIndex) (n : Fin 16) :
    (s.drawn x y n).getV 15 = 0#8 ∨ (s.drawn x y n).getV 15 = 1#8 := by
  obtain ⟨hv, -⟩ | ⟨hv, -⟩ := s.drawRows_flag x y (s.mem.bytes s.i.toNat n.val)
  · exact .inr hv
  · exact .inl hv

/-- A lit pixel of a sprite in bounds, in the terms claims are stated in (R118). -/
theorem State.drawMask_iff {s : State} {n : Fin 16} (h : s.SpriteInBounds n) (x y : RegIndex) (col : Fin 64)
    (row : Fin 32) :
    s.drawMask x y n col row = true ↔ Inside (s.drawLeft x) (s.drawTop y) n col row ∧
      s.spritePix (s.drawLeft x) (s.drawTop y) col row = true :=
  State.rowsMask_bytes_iff h _ _ col row

theorem State.drawMask_of_inside {s : State} {n : Fin 16} (h : s.SpriteInBounds n) {x y : RegIndex} {col : Fin 64}
    {row : Fin 32} (hin : Inside (s.drawLeft x) (s.drawTop y) n col row) :
    s.drawMask x y n col row = s.spritePix (s.drawLeft x) (s.drawTop y) col row :=
  Bool.eq_iff_iff.2 ((State.drawMask_iff h x y col row).trans (and_iff_right hin))

theorem State.drawMask_of_not_inside {s : State} {n : Fin 16} (h : s.SpriteInBounds n) {x y : RegIndex} {col : Fin 64}
    {row : Fin 32} (hout : ¬Inside (s.drawLeft x) (s.drawTop y) n col row) : s.drawMask x y n col row = false :=
  Bool.eq_false_iff.2 fun hp => hout ((State.drawMask_iff h x y col row).1 hp).1

/-! ### One draw -/

/-- Settles O13: covered cells are XORed with their pixel, the others with none, and `VF` tells whether one collided. -/
theorem drwClosedForm : Obligations.DrwClosedForm := by
  intro x y n s h
  have hflag := s.flag_drawn_eq_one_iff x y n
  simp only [State.drawMask_iff h, and_assoc] at hflag
  refine ⟨_, exec_drw_of_inBounds x y h, fun col row hin => ?_, fun col row hout => ?_, hflag.2, fun hno => ?_,
    fun r => s.getV_drawn_of_ne x y n, s.drawn_pc x y n, s.drawn_i x y n, fun a => ?_, s.drawn_fault x y n⟩
  · rw [s.cell_drawn, State.drawMask_of_inside h hin]
  · rw [s.cell_drawn, State.drawMask_of_not_inside h hout, Bool.xor_false]
  · exact (s.flag_drawn x y n).resolve_right (fun hv => hno (hflag.1 hv))
  · rw [s.drawn_mem]

/-- Settles O14: a draw out of bounds changes the latch alone, and one in bounds flips the cells of its lit pixels. -/
theorem drwFrame : Obligations.DrwFrame := by
  intro x y n s t ht
  by_cases h : s.SpriteInBounds n
  · cases (exec_drw_of_inBounds x y h).symm.trans ht
    refine ⟨s.drawn_pc x y n, s.drawn_i x y n, fun a => by rw [s.drawn_mem], fun r => s.getV_drawn_of_ne x y n,
      fun col row hne => (State.drawMask_iff h x y col row).1 ?_⟩
    by_contra hp
    rw [s.cell_drawn, Bool.eq_false_of_not_eq_true hp, Bool.xor_false] at hne
    exact hne rfl
  · cases (execDrw_of_not_inBounds x y h).symm.trans ht
    exact ⟨rfl, rfl, fun _ => rfl, fun _ _ => rfl, fun _ _ hne => absurd rfl hne⟩

/-- No row lies nowhere: `n = 0` is in bounds whatever `I` holds (R119). -/
theorem State.spriteInBounds_zero (s : State) : s.SpriteInBounds 0 := .inl rfl

/-- A sprite without rows has no pixel (R119). -/
theorem State.drawMask_zero (s : State) (x y : RegIndex) (col : Fin 64) (row : Fin 32) :
    s.drawMask x y 0 col row = false :=
  State.drawMask_of_not_inside s.spriteInBounds_zero fun ⟨_, _, htop, hbottom⟩ =>
    absurd (htop.trans_lt hbottom) (by simp)

/-- Settles O15: the draw is in bounds and has no pixel, so it flips no cell and records no collision. -/
theorem drwZeroRowsOnlyClearsFlag : Obligations.DrwZeroRowsOnlyClearsFlag := by
  intro x y s
  refine ⟨_, exec_drw_of_inBounds x y s.spriteInBounds_zero, (s.flag_drawn x y 0).resolve_right fun hv => ?_,
    fun r => s.getV_drawn_of_ne x y 0, s.drawn_pc x y 0, s.drawn_i x y 0, fun a => by rw [s.drawn_mem],
    fun col row => ?_, s.drawn_fault x y 0⟩
  · obtain ⟨col, row, hp, -⟩ := (s.flag_drawn_eq_one_iff x y 0).1 hv
    exact Bool.false_ne_true ((s.drawMask_zero x y col row).symm.trans hp)
  · rw [s.cell_drawn, s.drawMask_zero, Bool.xor_false]

/-- Settles O16: a lit cell is turned unlit exactly by a lit pixel over it. -/
theorem drwFlagReportsErasedCell : Obligations.DrwFlagReportsErasedCell := by
  intro x y n s h
  refine ⟨_, exec_drw_of_inBounds x y h, s.flag_drawn x y n, (s.flag_drawn_eq_one_iff x y n).trans ?_⟩
  refine exists_congr fun col => exists_congr fun row => ?_
  rw [s.cell_drawn]
  cases s.drawMask x y n col row <;> cases s.disp.cell col row <;> decide

/-- A draw clears `VF` before it reads anything. -/
@[simp] theorem State.clearFlag_setV_flag (s : State) (b : Byte) : (s.setV 15 b).clearFlag = s.clearFlag :=
  s.setV_setV 15 b 0#8

theorem State.drawn_setV_flag (s : State) (x y : RegIndex) (n : Fin 16) (b : Byte) :
    (s.setV 15 b).drawn x y n = s.drawn x y n := by
  rw [State.drawn, State.drawRows, s.clearFlag_setV_flag]
  rfl

/-- Settles O17: whether the sprite is in bounds does not depend on `VF`, and a draw in bounds clears it first. -/
theorem drwIgnoresOldFlag : Obligations.DrwIgnoresOldFlag := by
  intro x y n s b h
  have hb : (s.setV 15 b).SpriteInBounds n := h
  rw [exec_drw_of_inBounds x y hb, exec_drw_of_inBounds x y h, s.drawn_setV_flag]

/-! ### The same draw twice -/

theorem State.drawLeft_drawn (s : State) (x y q : RegIndex) (n : Fin 16) :
    (s.drawn x y n).drawLeft q = s.drawLeft q := by
  unfold State.drawLeft
  split
  · rfl
  · next hq => rw [s.getV_drawn_of_ne x y n hq]

theorem State.drawTop_drawn (s : State) (x y q : RegIndex) (n : Fin 16) :
    (s.drawn x y n).drawTop q = s.drawTop q := by
  unfold State.drawTop
  split
  · rfl
  · next hq => rw [s.getV_drawn_of_ne x y n hq]

/-- A draw moves neither the origin nor the rows of the next one: of the registers it writes `VF` alone, which counts as 0
there (R112). -/
theorem State.drawMask_drawn (s : State) (x y : RegIndex) (n : Fin 16) :
    (s.drawn x y n).drawMask x y n = s.drawMask x y n := by
  rw [State.drawMask, s.drawLeft_drawn, s.drawTop_drawn, s.drawn_mem, s.drawn_i]
  rfl

theorem State.SpriteInBounds.drawn {s : State} {n : Fin 16} (h : s.SpriteInBounds n) (x y : RegIndex) :
    (s.drawn x y n).SpriteInBounds n := by
  rwa [State.SpriteInBounds, s.drawn_i]

/-- The second of two equal draws collides where a lit pixel covers a cell that was unlit before the first. -/
theorem State.flag_drawn_drawn_eq_one_iff (s : State) (x y : RegIndex) (n : Fin 16) :
    ((s.drawn x y n).drawn x y n).getV 15 = 1#8 ↔
      ∃ col row, s.drawMask x y n col row = true ∧ s.disp.cell col row = false := by
  rw [State.flag_drawn_eq_one_iff, s.drawMask_drawn]
  refine exists_congr fun col => exists_congr fun row => and_congr_right fun hp => ?_
  rw [s.cell_drawn, hp, Bool.xor_true, Bool.not_eq_true']

/-- Settles O18: both draws XOR the same pixels, so the second undoes the first. -/
theorem drwTwiceRestoresDisplay : Obligations.DrwTwiceRestoresDisplay := by
  intro x y n s h
  refine ⟨_, _, exec_drw_of_inBounds x y h, exec_drw_of_inBounds x y (h.drawn x y), fun col row => ?_, ?_⟩
  · rw [State.cell_drawn, s.cell_drawn, s.drawMask_drawn, Bool.xor_assoc, Bool.xor_self, Bool.xor_false]
  · have hflag := s.flag_drawn_drawn_eq_one_iff x y n
    simpa only [State.drawMask_iff h, and_assoc] using hflag

/-- One lit pixel, at (0, 0), over the one lit cell of the display. -/
def litPixelOverLitCell : State :=
  { State.reset with mem := [(0, 0x80#8)], disp := Display.clear.setCell 0 0 true }

/-- The first draw erases the cell, and the second lights it again without a collision. -/
theorem flag_litPixelOverLitCell_drawn_drawn :
    ((litPixelOverLitCell.drawn 0 0 1).drawn 0 0 1).getV 15 = 0#8 := by
  decide +kernel

/-- Refutes O19: a lit pixel over a lit cell is drawn twice and leaves `VF` at 0. -/
theorem not_drwTwiceFlagIffLitPixelOnAnyDisplay : ¬Obligations.DrwTwiceFlagIffLitPixelOnAnyDisplay := by
  intro h
  have hb : litPixelOverLitCell.SpriteInBounds 1 := .inr (by decide)
  have hflag := h 0 0 1 _ _ _ hb (exec_drw_of_inBounds 0 0 hb) (exec_drw_of_inBounds 0 0 (hb.drawn 0 0))
  rw [flag_litPixelOverLitCell_drawn_drawn] at hflag
  have hpix :
      litPixelOverLitCell.spritePix (litPixelOverLitCell.drawLeft 0) (litPixelOverLitCell.drawTop 0) 0 0 = true := by
    decide
  have hin : Inside (litPixelOverLitCell.drawLeft 0) (litPixelOverLitCell.drawTop 0) 1 0 0 := by
    unfold Inside
    decide
  exact absurd (hflag.2 ⟨0, 0, hin, hpix⟩) (by decide)

end Sys2Proof.Machine

end
